-- ==== Sys2Proof/Word.lean ====
section
/-!
DEFINITION. The words of the AVR-DS3231 CORE.

Every value of the block is an unsigned integer of 8 bits or a flag of 1 bit (spec/00_scope.md R7, R8;
spec/30_encoding.md R75 to R77).
-/

namespace Sys2Proof

/-- A byte, numbered 7 (most significant) down to 0 (R7): a bus byte, a register image byte, an 8-bit host field. -/
abbrev Byte := BitVec 8

/-- A 1-bit host flag: `century` and the alarm mask flags `m1` to `m4` (R75, R76). -/
abbrev Bit := BitVec 1

end Sys2Proof
end

