-- ==== Sys2Proof/Config.lean ====
section
/-!
DEFINITION. What the environment decides and the spec leaves free: the OPEN parameter `transport`
(spec/92_eei_decisions.md D13; spec/42_transactions.md R151).

Both constants have no body, so nothing can be proved about their values. They are applied to the draw counter of
`State` (one draw per transport request), and a receive also to the index of the byte. They are used only where the
transport's answers are not already given as input data in `State.answers` (notes/assumptions/1.md).
-/

namespace Sys2Proof.Config

/-- Whether the transport answers its `n`-th request `ok` (true) or `fail` (false): any value (R151, U2). -/
opaque transportOk : Nat → Bool

/-- Byte `i` that the receive of draw `n` delivers: any value (R150, R151, U3). -/
opaque transportByte (n i : Nat) : Byte

end Sys2Proof.Config
end

