-- ==== Sys2Proof/Syntax.lean ====
section
/-!
DEFINITION. The commands of the block and the host values they carry.

The eight constructors of `Instr` are the eight rows of spec/opcode_table.json (spec/30_encoding.md R74,
spec/43_operations.md R181 to R188). A write carries the host value the port delivers with it (`vin`,
spec/10_state.md R29); a read carries nothing.
-/

namespace Sys2Proof

/-- The register groups (R46), in the order of the `GRP` codes 0b00 to 0b11 (R71). -/
inductive Group where
  | clock
  | alarm1
  | alarm2
  | control
deriving DecidableEq, Repr

/-- The direction of an operation, and of an addressing step on the bus (R72, R152). -/
inductive Dir where
  | write
  | read
deriving DecidableEq, Repr

/-- ClockValue in the field order of R75: 8-bit unsigned fields and a 1-bit century (D3). -/
structure ClockValue where
  seconds : Byte
  minutes : Byte
  hours   : Byte
  day     : Byte
  date    : Byte
  century : Bit
  month   : Byte
  year    : Byte
deriving DecidableEq, Repr

/-- AlarmValue in the index order of R76. Both alarms use this one shape (90_conflicts.md C7). -/
structure AlarmValue where
  m1      : Bit
  seconds : Byte
  m2      : Bit
  minutes : Byte
  m3      : Bit
  hours   : Byte
  m4      : Bit
  date    : Byte
deriving DecidableEq, Repr

/-- ControlValue: the raw bytes of registers 0x0E and 0x0F, 16 one-bit flags (R33, R77). -/
structure ControlValue where
  ctrl : Byte
  stat : Byte
deriving DecidableEq, Repr

/-- A host value: what `vin` and `vout` carry (R28, R29). -/
inductive HostValue where
  | clock   (v : ClockValue)
  | alarm   (a : AlarmValue)
  | control (c : ControlValue)
deriving DecidableEq, Repr

/-- The eight commands, one constructor per row of the opcode table (R74). -/
inductive Instr where
  | writeClock   (v : ClockValue)
  | readClock
  | writeAlarm1  (a : AlarmValue)
  | readAlarm1
  | writeAlarm2  (a : AlarmValue)
  | readAlarm2
  | writeControl (c : ControlValue)
  | readControl
deriving DecidableEq, Repr

end Sys2Proof
end

