-- ==== Sys2Proof/Machine/State.lean ====
section
/-!
DEFINITION. Everything the spec gives the machine, as plain data, and its reset value.

Four agents take part (spec/10_state.md R20). `State` holds the block's own transient state (R23 to R28, R36), the
hidden bus condition (R32), the inputs of the host and the transport (R20, R29, R30) and the peripheral's registers
as far as the block reaches them (spec/20_memory.md R45, R46, R49), which belong to the environment. The constant
table (R31) is no state: it is in Machine/Operands.lean.
-/

namespace Sys2Proof.Machine

/-- `IDLE` between operations, `BUSY` from the acceptance of a command to the delivery of its outcome (R23). -/
inductive Phase where
  | idle
  | busy
deriving DecidableEq, Repr

/-- The latched operation: group and direction (R25). -/
structure Op where
  group : Group
  dir   : Dir
deriving DecidableEq, Repr

/-- The outcome of an operation (R27). -/
inductive Result where
  | ok
  | fail
deriving DecidableEq, Repr

/-- The hidden condition of the bus (R32). -/
inductive BusCond where
  | free
  | held
  | unknown
deriving DecidableEq, Repr

/-- A request to the transport, with its operands (R150). `T.addr(W)` and `T.addr(R)` carry the address byte they send
(R152); `T.txn(buf, n)` carries its n bytes. -/
inductive Request where
  | begin
  | addr (b : Byte)
  | tx (b : Byte)
  | txn (buf : List Byte)
  | rx (n : Nat)
  | restart
  | stop
deriving DecidableEq, Repr

/-- The transport's answer as the block sees it: `ok`, for a receive with the received bytes, or `fail` (R150). -/
inductive Reply where
  | ok (received : List Byte)
  | fail
deriving DecidableEq, Repr

/-- One event of the trace, `Ev(k, request, answer)` (R159). -/
structure Event where
  k     : Fin 8
  req   : Request
  reply : Reply
deriving DecidableEq, Repr

/-- One coming answer of the transport, given as input data (R20, R151).
`ok bytes` answers ok, and a receive delivers `bytes` (any byte the list does not give is a free draw);
`okRegs` answers ok, and a receive delivers what the peripheral's registers hold, as in the reference environment of
92_eei_decisions.md D17 (a register whose value is unknown delivers a free draw); `fail` answers fail. -/
inductive Answer where
  | ok (bytes : List Byte)
  | okRegs
  | fail
deriving DecidableEq, Repr

/-- When a reset that is on its way lands (R231): after `requests` more transport requests have been answered, and, if
`issued`, only once the request after them has been issued (its answer is then never taken). -/
structure ResetAt where
  requests : Nat
  issued   : Bool
deriving DecidableEq, Repr

/-- The peripheral's registers (R45, R46): address and byte, addresses strictly rising. An address that is not listed
holds a value nothing is known of (R230 "unspecified"; R57 "any value"). -/
abbrev Memory := List Host.Cell

/-- The transfer buffer's 7 bytes; an unwritten byte is `none` (R26, R36). -/
abbrev Buf := Vector (Option Byte) 7

/-- No byte of the buffer is written (R26, R230). -/
def Buf.unwritten : Buf := #v[none, none, none, none, none, none, none]

/-- The state. -/
structure State where
  /-- `phase`, R23 -/
  phase : Phase
  /-- `step`, the sequencer's step index, R24 -/
  step : Fin 8
  /-- whether the last answer of the operation in progress was `fail` (R158, third row) -/
  failed : Bool
  /-- `op`, the latched operation, R25 -/
  op : Option Op
  /-- `buf[0..6]`, the transfer buffer, R26 -/
  buf : Buf
  /-- `res`, the outcome of the last operation, R27 -/
  res : Option Result
  /-- `vout`, the value a read delivers, R28 -/
  vout : Option HostValue
  /-- `done` of the host port: an outcome has been delivered and no command accepted since, R29 -/
  done : Bool
  /-- `trace`, oldest event first, R159 -/
  trace : List Event
  /-- the hidden bus condition, R32 -/
  bus : BusCond
  /-- the peripheral's registers, as the block's writes and the environment left them, R45, R46, R49 -/
  mem : Memory
  /-- the peripheral's register pointer; `none` when it may be anything, R49, U16 -/
  ptr : Option Byte
  /-- the host port's command stream: the bytes of `cmd` and `vin` still to be taken, R29, R95 -/
  cmdIn : List Byte
  /-- the transport's coming answers, as far as they are given as input, R151 -/
  answers : List Answer
  /-- how many answers have been drawn: the index of the next free draw (the model's own field) -/
  draws : Nat
  /-- another caller or master has an operation in progress on this bus, R62, R235 -/
  otherMaster : Bool
  /-- a reset on its way, R231 -/
  resetIn : Option ResetAt
deriving DecidableEq, Repr

/-- Why the machine stops with a fault. Both treatments are the spec's own (93_implementation_defined.md U8, U11). -/
inductive Fault where
  /-- Two operations interleave on one bus (R62, R235, U8). Raised by every command that starts while another operation,
  of this block or of another master, is in progress, and by a transition of the sequencer while another master is
  active. Safe: the run stops where the spec gives no meaning. -/
  | interleaved
  /-- A byte of `buf` that nothing has written is read (R36, U11). Raised by the sequencer only; no rule of the block
  performs such a read, so it needs a state no run reaches. Safe. -/
  | bufUnwritten
  /-- `op` is read while no operation is latched (R25: "unspecified and never read in IDLE"). Raised by the sequencer
  only, in a BUSY state without an operation, which no run reaches. Safe. -/
  | opUnlatched
deriving DecidableEq, Repr

/-- Why the machine gives an input no meaning. -/
inductive Refusal where
  /-- A reserved command word, `cmd[7:3] != 0` (R73, R202, U9). Raised by `step`, never by a command. Safe: the spec
  itself refuses the word and marks the run refused. -/
  | reservedCommand (cmd : Byte)
  /-- A command that has no meaning yet. No arm of `exec` raises it. Safe. -/
  | notModelled (mnemonic : String)
deriving DecidableEq, Repr

/-- The machine right after reset (spec/70_reset_and_hazards.md R230; `bus` D22): the block idle, nothing known of the
peripheral, no command presented, no answer given in advance. -/
def State.reset : State where
  phase := .idle
  step := 0
  failed := false
  op := none
  buf := Buf.unwritten
  res := none
  vout := none
  done := false
  trace := []
  bus := .free
  mem := []
  ptr := none
  cmdIn := []
  answers := []
  draws := 0
  otherMaster := false
  resetIn := none

end Sys2Proof.Machine
end

