-- ==== Sys2Proof/Machine/Flags.lean ====
section
/-!
DEFINITION. The block's only status flag, `res` (spec/10_state.md R27), its bit on the host port (R29,
92_eei_decisions.md D21), and what an answer does to the bus condition (R32).

No other flag exists: no carry, zero or condition code (R27).
-/

namespace Sys2Proof.Machine

/-- `res` on the host port: 0 = OK, 1 = FAIL (R29, D21). -/
def Result.toBit : Result → Bit
  | .ok => 0
  | .fail => 1

/-- Whether an answer is `fail` (R153). -/
def Reply.isFail : Reply → Bool
  | .ok _ => false
  | .fail => true

/-- The bus condition after a request is answered (R32): `UNKNOWN` after any `fail`, `HELD` after an `ok` begin,
`FREE` after an `ok` stop, otherwise as before. -/
def busAfter (req : Request) (reply : Reply) (bus : BusCond) : BusCond :=
  match reply, req with
  | .fail, _ => .unknown
  | .ok _, .begin => .held
  | .ok _, .stop => .free
  | .ok _, .addr _ | .ok _, .tx _ | .ok _, .txn _ | .ok _, .rx _ | .ok _, .restart => bus

/-- What the host port shows (R29): `done`, `res` as a bit (meaningful with `done`), and `vout`. -/
structure HostOut where
  done : Bool
  res  : Option Bit
  vout : Option HostValue
deriving DecidableEq, Repr

/-- The host port's outputs in a state (R29). -/
def State.hostOut (s : State) : HostOut where
  done := s.done
  res := s.res.map Result.toBit
  vout := s.vout

end Sys2Proof.Machine
end

