-- ==== Sys2Proof/Decode.lean ====
section
/-!
DEFINITION. The command word CMD8, the payload serialisation, the decoder and the encoder
(spec/30_encoding.md R70 to R74, R83, R88, R95).

The host port's command stream is a list of bytes: one command word, then, for a write, the host value's payload of 8
or 2 bytes (R88, R95; the programs of spec/95_test_vectors.md P1 to P5). The decoder reads one command from the front
and returns the rest. It is total: it answers a command, "nothing there", "payload not all there", or "reserved".
-/

namespace Sys2Proof

/-- Why no command was read from the front of the stream. -/
inductive DecodeError where
  /-- The stream is empty: no command is presented (R232). -/
  | empty
  /-- A valid word whose payload is not all there yet (R88): the command is not presented yet. -/
  | incomplete
  /-- `cmd[7:3] != 0`: the word is reserved (R73). -/
  | reserved (cmd : Byte)
deriving DecidableEq, Repr

/-- `cmd[7:3]`, the field `RSV` (R70). -/
def cmdRsv (cmd : Byte) : BitVec 5 := cmd.extractLsb' 3 5

/-- `cmd[2:1]`, the field `GRP` (R70). -/
def cmdGrp (cmd : Byte) : BitVec 2 := cmd.extractLsb' 1 2

/-- `cmd[0]`, the field `DIR` (R70). -/
def cmdDir (cmd : Byte) : Bit := cmd.extractLsb' 0 1

/-- The group a `GRP` code names (R71). -/
def groupOfCode (grp : BitVec 2) : Group :=
  if grp = 0b00 then .clock else if grp = 0b01 then .alarm1 else if grp = 0b10 then .alarm2 else .control

/-- The `GRP` code of a group (R71). -/
def codeOfGroup : Group → BitVec 2
  | .clock => 0b00
  | .alarm1 => 0b01
  | .alarm2 => 0b10
  | .control => 0b11

/-- The direction a `DIR` bit names: 0 = WRITE, 1 = READ (R72). -/
def dirOfCode (dir : Bit) : Dir := if dir = 0 then .write else .read

/-- The `DIR` bit of a direction (R72). -/
def codeOfDir : Dir → Bit
  | .write => 0
  | .read => 1

/-- A flag carried in bit 0 of its payload byte; bits 7:1 are ignored (R95). -/
def flagOfByte (b : Byte) : Bit := b.extractLsb' 0 1

/-- The payload byte of a flag: bit 0 the flag, bits 7:1 zero (R95). -/
def byteOfFlag (f : Bit) : Byte := f.setWidth 8

/-- The bytes of a ClockValue payload in the index order of R75 (R95). -/
def clockPayload (v : ClockValue) : List Byte :=
  [v.seconds, v.minutes, v.hours, v.day, v.date, byteOfFlag v.century, v.month, v.year]

/-- The bytes of an AlarmValue payload in the index order of R76 (R95). -/
def alarmPayload (a : AlarmValue) : List Byte :=
  [byteOfFlag a.m1, a.seconds, byteOfFlag a.m2, a.minutes, byteOfFlag a.m3, a.hours, byteOfFlag a.m4, a.date]

/-- The bytes of a ControlValue payload, `[ctrl, stat]` (R95). -/
def controlPayload (c : ControlValue) : List Byte := [c.ctrl, c.stat]

/-- Read a ClockValue payload from the front of the stream (R95). -/
def readClockPayload : List Byte → Option (ClockValue × List Byte)
  | sec :: min :: hr :: day :: date :: cent :: mon :: yr :: rest =>
    some ({ seconds := sec, minutes := min, hours := hr, day := day, date := date,
            century := flagOfByte cent, month := mon, year := yr }, rest)
  | _ => none

/-- Read an AlarmValue payload from the front of the stream (R95). -/
def readAlarmPayload : List Byte → Option (AlarmValue × List Byte)
  | m1 :: sec :: m2 :: min :: m3 :: hr :: m4 :: date :: rest =>
    some ({ m1 := flagOfByte m1, seconds := sec, m2 := flagOfByte m2, minutes := min,
            m3 := flagOfByte m3, hours := hr, m4 := flagOfByte m4, date := date }, rest)
  | _ => none

/-- Read a ControlValue payload from the front of the stream (R95). -/
def readControlPayload : List Byte → Option (ControlValue × List Byte)
  | c :: st :: rest => some ({ ctrl := c, stat := st }, rest)
  | _ => none

/-- A write command from its payload; a payload that is not all there is no command yet. -/
def withPayload {α : Type} (mk : α → Instr) : Option (α × List Byte) → Except DecodeError (Instr × List Byte)
  | some (v, rest) => .ok (mk v, rest)
  | none => .error .incomplete

/-- The command of a group and a direction, its payload read from `rest` (R74, R83, R88). -/
def decodeOp (g : Group) (d : Dir) (rest : List Byte) : Except DecodeError (Instr × List Byte) :=
  match g, d with
  | .clock,   .write => withPayload .writeClock (readClockPayload rest)
  | .clock,   .read  => .ok (.readClock, rest)
  | .alarm1,  .write => withPayload .writeAlarm1 (readAlarmPayload rest)
  | .alarm1,  .read  => .ok (.readAlarm1, rest)
  | .alarm2,  .write => withPayload .writeAlarm2 (readAlarmPayload rest)
  | .alarm2,  .read  => .ok (.readAlarm2, rest)
  | .control, .write => withPayload .writeControl (readControlPayload rest)
  | .control, .read  => .ok (.readControl, rest)

/-- The decoder (R74): `if cmd[7:3] != 0 then refuse else (GRP, DIR) = (cmd[2:1], cmd[0])`. -/
def decode : List Byte → Except DecodeError (Instr × List Byte)
  | [] => .error .empty
  | cmd :: rest =>
    if cmdRsv cmd = 0 then decodeOp (groupOfCode (cmdGrp cmd)) (dirOfCode (cmdDir cmd)) rest
    else .error (.reserved cmd)

/-- The register group of a command (R74). -/
def Instr.group : Instr → Group
  | .writeClock _ | .readClock => .clock
  | .writeAlarm1 _ | .readAlarm1 => .alarm1
  | .writeAlarm2 _ | .readAlarm2 => .alarm2
  | .writeControl _ | .readControl => .control

/-- The direction of a command (R74). -/
def Instr.dir : Instr → Dir
  | .writeClock _ | .writeAlarm1 _ | .writeAlarm2 _ | .writeControl _ => .write
  | .readClock | .readAlarm1 | .readAlarm2 | .readControl => .read

/-- The payload of a command (R95); a read has none (R88). -/
def Instr.payload : Instr → List Byte
  | .writeClock v => clockPayload v
  | .writeAlarm1 a => alarmPayload a
  | .writeAlarm2 a => alarmPayload a
  | .writeControl c => controlPayload c
  | .readClock | .readAlarm1 | .readAlarm2 | .readControl => []

/-- The command word of a group and a direction: RSV = 0, then GRP, then DIR (R70). -/
def cmdWord (g : Group) (d : Dir) : Byte := (0 : BitVec 5) ++ codeOfGroup g ++ codeOfDir d

/-- The encoder: the command word, then the payload (R88, R95). -/
def encode (i : Instr) : List Byte := cmdWord i.group i.dir :: i.payload

/-- How many payload bytes a command word announces; a decoder knows it from `GRP` and `DIR` alone (R88). -/
def payloadBytes : Group → Dir → Nat
  | _, .read => 0
  | .clock, .write | .alarm1, .write | .alarm2, .write => 8
  | .control, .write => 2

/-- The bytes of the longest command (1 word and 8 payload bytes, R88) whose lowest `nbits` bits are those of `w`,
first byte first, and every bit above them 0. -/
def tableBytes (nbits w : Nat) : List Byte :=
  (List.range 9).map fun i => BitVec.ofNat 8 ((w % 2 ^ nbits) >>> (8 * i))

/-- The command the decoder reads from a word numbered as spec/opcode_table.json numbers it, its operand bytes 0. -/
def decodeTableWord (nbits w : Nat) : Option Instr :=
  match decode (tableBytes nbits w) with
  | .ok (i, _) => some i
  | .error _ => none

end Sys2Proof
end

