-- ==== Sys2Proof/Machine/Bcd.lean ====
section
/-!
DEFINITION. The BCD field encoder/decoder (spec/40_bcd_codec.md R100 to R109).

The functions are total and read nothing but their operands (R108).
-/

namespace Sys2Proof.Machine

/-- `mask(w) = 2^w - 1` as a byte (R7). -/
def mask (w : Nat) : Byte := BitVec.ofNat 8 (2 ^ w - 1)

/-- `decode_bcd_field(tens, ones)`: `tens*10 + ones`, no digit rejected (R101). -/
def decodeBcdField (tens ones : Byte) : Byte := tens * 10 + ones

/-- `encode_bcd_field(value)`: `(value / 10, value % 10)`, unsigned (R102). -/
def encodeBcdField (value : Byte) : Byte × Byte := (value / 10, value % 10)

/-- `pack_bcd(v, tw)`: the tens digit cut to `tw` bits at bit 4, the ones digit at bits 3:0 (R103, R104). -/
def packBcd (v : Byte) (tw : Nat) : Byte :=
  (((encodeBcdField v).1 &&& mask tw) <<< 4) ||| ((encodeBcdField v).2 &&& 0x0F)

/-- `unpack_bcd(b, tw)`: bits above the tens digit are ignored (R104). -/
def unpackBcd (b : Byte) (tw : Nat) : Byte := decodeBcdField ((b >>> 4) &&& mask tw) (b &&& 0x0F)

/-- `pack_plain(v, lo, w)`: a field copied directly, cut to its width (R105). -/
def packPlain (v : Byte) (lo w : Nat) : Byte := (v &&& mask w) <<< lo

/-- `unpack_plain(b, lo, w)` (R105). -/
def unpackPlain (b : Byte) (lo w : Nat) : Byte := (b >>> lo) &&& mask w

/-- A 1-bit flag at bit 7 of its byte: `pack_plain(f, 7, 1)` (R105, R120, R122). -/
def packFlag (f : Bit) : Byte := packPlain (f.setWidth 8) 7 1

/-- Bit 7 of a byte as a 1-bit flag (R121, R123). -/
def unpackFlag (b : Byte) : Bit := (unpackPlain b 7 1).setWidth 1

end Sys2Proof.Machine
end

