-- ==== Sys2Proof/Machine/Codec.lean ====
section
/-!
DEFINITION. The register codec: host values to packed register images and back (spec/41_register_codec.md R120 to
R127), at the field positions of spec/30_encoding.md R78 to R81.

An image is the bytes of its group in increasing register address (R10, R50). No function here fails (R108).
-/

namespace Sys2Proof.Machine

/-- `encode_clock` (R120). -/
def encodeClock (v : ClockValue) : Vector Byte 7 :=
  #v[packBcd v.seconds 3,
     packBcd v.minutes 3,
     packBcd v.hours 2,
     packPlain v.day 0 3,
     packBcd v.date 2,
     packBcd v.month 1 ||| packFlag v.century,
     packBcd v.year 4]

/-- `decode_clock` (R121). -/
def decodeClock (p : Vector Byte 7) : ClockValue where
  seconds := unpackBcd p[0] 3
  minutes := unpackBcd p[1] 3
  hours := unpackBcd p[2] 2
  day := unpackPlain p[3] 0 3
  date := unpackBcd p[4] 2
  century := unpackFlag p[5]
  month := unpackBcd p[5] 1
  year := unpackBcd p[6] 4

/-- `encode_alarm1` (R122). -/
def encodeAlarm1 (a : AlarmValue) : Vector Byte 4 :=
  #v[packFlag a.m1 ||| packBcd a.seconds 3,
     packFlag a.m2 ||| packBcd a.minutes 3,
     packFlag a.m3 ||| packBcd a.hours 2,
     packFlag a.m4 ||| packBcd a.date 2]

/-- `decode_alarm1` (R123). -/
def decodeAlarm1 (p : Vector Byte 4) : AlarmValue where
  m1 := unpackFlag p[0]
  seconds := unpackBcd p[0] 3
  m2 := unpackFlag p[1]
  minutes := unpackBcd p[1] 3
  m3 := unpackFlag p[2]
  hours := unpackBcd p[2] 2
  m4 := unpackFlag p[3]
  date := unpackBcd p[3] 2

/-- `encode_alarm2`: `m1` and `seconds` are not read (R124). -/
def encodeAlarm2 (a : AlarmValue) : Vector Byte 3 :=
  #v[packFlag a.m2 ||| packBcd a.minutes 3,
     packFlag a.m3 ||| packBcd a.hours 2,
     packFlag a.m4 ||| packBcd a.date 2]

/-- `decode_alarm2`: `m1 = 0` and `seconds = 0` are synthesised (R125, R129). -/
def decodeAlarm2 (p : Vector Byte 3) : AlarmValue where
  m1 := 0
  seconds := 0
  m2 := unpackFlag p[0]
  minutes := unpackBcd p[0] 3
  m3 := unpackFlag p[1]
  hours := unpackBcd p[1] 2
  m4 := unpackFlag p[2]
  date := unpackBcd p[2] 2

/-- `encode_control`: the identity (R126). -/
def encodeControl (c : ControlValue) : Vector Byte 2 := #v[c.ctrl, c.stat]

/-- `decode_control`: the identity (R127). -/
def decodeControl (p : Vector Byte 2) : ControlValue where
  ctrl := p[0]
  stat := p[1]

/-- The reserved bits of the clock image, `RSV_CLOCK` (R78, R128). -/
def rsvClock : Vector Byte 7 := #v[0x80, 0x80, 0xC0, 0xF8, 0xC0, 0x60, 0x00]

/-- The reserved bits of the alarm-1 image (R79, R128). -/
def rsvAlarm1 : Vector Byte 4 := #v[0x00, 0x00, 0x40, 0x40]

/-- The reserved bits of the alarm-2 image (R80, R128). -/
def rsvAlarm2 : Vector Byte 3 := #v[0x00, 0x40, 0x40]

end Sys2Proof.Machine
end

