-- ==== Sys2Proof/Machine/Operands.lean ====
section
/-!
DEFINITION. Operand assembly: the constant table, the transfer buffer as an operand, the group's decoder and the two
request sequences (spec/10_state.md R26, R31; spec/30_encoding.md R83, R84; spec/42_transactions.md R154, R155).

A command has one addressing mode, absolute and fixed by its group: `EA = BASE[GRP]` (spec/43_operations.md R192). No
host value reaches an address (spec/20_memory.md R48).
-/

namespace Sys2Proof.Machine

/-- `DEV_ADDR7`, the peripheral's 7-bit bus address (R6, R84). -/
def devAddr7 : BitVec 7 := 0x68

/-- The address byte of a direction: the 7-bit address with the read/write bit at bit 0 (R84, R152). -/
def devAddr (d : Dir) : Byte := devAddr7 ++ codeOfDir d

/-- `BASE[g]`, the first register address of a group and its register pointer byte (R31, R46). -/
def base : Group → Byte
  | .clock => 0x00
  | .alarm1 => 0x07
  | .alarm2 => 0x0B
  | .control => 0x0E

/-- `LEN[g]`, the number of registers of a group (R31, R46). -/
def len : Group → Nat
  | .clock => 7
  | .alarm1 => 4
  | .alarm2 => 3
  | .control => 2

/-- `n(op)`, the last step of an operation's sequence (R158). -/
def lastStep : Dir → Nat
  | .read => 7
  | .write => 5

/-- Bytes laid into the buffer from index 0; the bytes past them are unwritten (R26). -/
def Buf.ofBytes (bs : List Byte) : Buf := #v[bs[0]?, bs[1]?, bs[2]?, bs[3]?, bs[4]?, bs[5]?, bs[6]?]

/-- All the values of a list, if every one is there. -/
def allPresent {α : Type} : List (Option α) → Option (List α)
  | [] => some []
  | none :: _ => none
  | some x :: xs => (allPresent xs).map (x :: ·)

/-- `buf[0..n-1]`, if every byte of it is written (R26, R36). -/
def Buf.bytes (b : Buf) (n : Nat) : Option (List Byte) := allPresent (b.toList.take n)

/-- A byte list as an image of `n` bytes, if it has that many. -/
def toImage (n : Nat) (bs : List Byte) : Option (Vector Byte n) :=
  if h : bs.length = n then some ⟨bs.toArray, h⟩ else none

/-- The bytes of a write: `encode_g(vin)` (R158, R180). A read sends none. -/
def imageOf : Instr → List Byte
  | .writeClock v => (encodeClock v).toList
  | .writeAlarm1 a => (encodeAlarm1 a).toList
  | .writeAlarm2 a => (encodeAlarm2 a).toList
  | .writeControl c => (encodeControl c).toList
  | .readClock | .readAlarm1 | .readAlarm2 | .readControl => []

/-- `decode_g` of the bytes of a group's image (R158, R180); `none` if they are not `LEN[g]` bytes. -/
def decodeGroup (g : Group) (bs : List Byte) : Option HostValue :=
  match g with
  | .clock => (toImage 7 bs).map fun p => .clock (decodeClock p)
  | .alarm1 => (toImage 4 bs).map fun p => .alarm (decodeAlarm1 p)
  | .alarm2 => (toImage 3 bs).map fun p => .alarm (decodeAlarm2 p)
  | .control => (toImage 2 bs).map fun p => .control (decodeControl p)

/-- `read_registers(start, length)`: the seven requests (R154). -/
def readSeq (start : Byte) (length : Nat) : List Request :=
  [.begin, .addr (devAddr .write), .tx start, .restart, .addr (devAddr .read), .rx length, .stop]

/-- `write_registers(start, bytes)`: the five requests (R155), the data in one transmit-bytes request (R160). -/
def writeSeq (start : Byte) (bytes : List Byte) : List Request :=
  [.begin, .addr (devAddr .write), .tx start, .txn bytes, .stop]

end Sys2Proof.Machine
end

