-- ==== Sys2Proof/Machine/Ops.lean ====
section
/-!
DEFINITION. The named operations: the peripheral's registers, one transport request, the fallible sequence, acceptance
and completion, the transaction failure, reset, and the sequencer's transition (spec/20_memory.md, spec/42_transactions.md,
spec/43_operations.md R180, spec/60_exceptions.md R205, spec/70_reset_and_hazards.md R230, R231).
-/

namespace Sys2Proof.Machine

/-! ### The peripheral's registers (R45, R46, R49, R57) -/

/-- What an address that is not listed reads as: nothing is known of it (R57, R230). -/
def Memory.unlisted : Option Byte := none

/-- The value of a register, if it is known. -/
def Memory.read : Memory → Nat → Option Byte
  | [], _ => Memory.unlisted
  | (c, x) :: m, a => if c = a then some x else Memory.read m a

/-- Every address of the list lies above `lo`, and they rise strictly. -/
def Memory.risesFrom : Nat → Memory → Bool
  | _, [] => true
  | lo, (c, _) :: m => decide (lo ≤ c) && Memory.risesFrom (c + 1) m

/-- The canonical form: addresses strictly rising. (An unlisted register has no value, so no entry can equal it.) -/
def Memory.wf (m : Memory) : Bool := Memory.risesFrom 0 m

/-- Set one register. -/
def Memory.write : Memory → Nat → Byte → Memory
  | [], a, b => [(a, b)]
  | (c, x) :: m, a, b =>
    if a < c then (a, b) :: (c, x) :: m
    else if a = c then (a, b) :: m
    else (c, x) :: Memory.write m a b

/-- Set consecutive registers from address `a` on: byte i lands at register `a + i` (R49, R50). -/
def Memory.writeBytes : Memory → Nat → List Byte → Memory
  | m, _, [] => m
  | m, a, b :: bs => Memory.writeBytes (Memory.write m a b) (a + 1) bs

/-- Nothing is known any more of the `n` registers from `a` on: they may hold any value (R57). -/
def Memory.forget : Memory → Nat → Nat → Memory
  | [], _, _ => []
  | (c, x) :: m, a, n => if c < a ∨ a + n ≤ c then (c, x) :: Memory.forget m a n else Memory.forget m a n

/-! ### The transport's answers (R150, R151) -/

/-- The answer the transport gives to the `j`-th request from now on: from the given input, else a free draw (R151). -/
def State.answerAt (s : State) (j : Nat) : Answer :=
  match s.answers[j]? with
  | some a => a
  | none => if Config.transportOk (s.draws + j) then .ok [] else .fail

/-- The bytes a receive of `n` bytes delivers under an `ok` answer (R50, R150, R151): byte i is the input's, or that of
the register the pointer has come to (R49, D17), or where neither gives one, a free draw. -/
def received (a : Answer) (mem : Memory) (ptr : Option Byte) (draw n : Nat) : List Byte :=
  (List.range n).map fun i =>
    let given : Option Byte :=
      match a with
      | .ok bs => bs[i]?
      | .okRegs => ptr.bind fun p => Memory.read mem (p.toNat + i)
      | .fail => none
    given.getD (Config.transportByte draw i)

/-- What the block sees of the answer to a request (R150). Only a receive carries bytes. -/
def replyTo (req : Request) (s : State) : Reply :=
  match s.answerAt 0, req with
  | .fail, _ => .fail
  | a, .rx n => .ok (received a s.mem s.ptr s.draws n)
  | _, .begin | _, .addr _ | _, .tx _ | _, .txn _ | _, .restart | _, .stop => .ok []

/-! ### What an answered request changes -/

/-- The buffer after a request: a receive fills it, and a failed receive leaves nothing in it (R26, R154, R161). -/
def bufAfter (req : Request) (reply : Reply) (buf : Buf) : Buf :=
  match req, reply with
  | .rx _, .ok bs => Buf.ofBytes bs
  | .rx _, .fail => Buf.unwritten
  | .begin, _ | .addr _, _ | .tx _, _ | .txn _, _ | .restart, _ | .stop, _ => buf

/-- The peripheral's registers after a request: the bytes of an `ok` `T.txn` land from the pointer on (R49); with the
pointer unknown they may have landed anywhere. -/
def memAfter (req : Request) (reply : Reply) (ptr : Option Byte) (mem : Memory) : Memory :=
  match req, reply with
  | .txn bs, .ok _ =>
    match ptr with
    | some p => Memory.writeBytes mem p.toNat bs
    | none => []
  | .txn _, .fail => mem
  | .begin, _ | .addr _, _ | .tx _, _ | .rx _, _ | .restart, _ | .stop, _ => mem

/-- The peripheral's register pointer after a request (R49, D17): set by the pointer byte, advanced by one per data
byte, and any value after a failure (U16). -/
def ptrAfter (req : Request) (reply : Reply) (ptr : Option Byte) : Option Byte :=
  match reply, req with
  | .fail, _ => none
  | .ok _, .tx b => some b
  | .ok _, .txn bs => ptr.map (· + BitVec.ofNat 8 bs.length)
  | .ok _, .rx n => ptr.map (· + BitVec.ofNat 8 n)
  | .ok _, .begin | .ok _, .addr _ | .ok _, .restart | .ok _, .stop => ptr

/-- A reset on its way comes one request nearer when a request is answered (R231). -/
def ResetAt.nearer (r : ResetAt) : ResetAt := { r with requests := r.requests - 1 }

/-- One transport request (R150, R153, R158 second row): `step` advances, the answer is drawn, the event is emitted,
and a receive fills `buf`. -/
def issue (req : Request) (s : State) : State :=
  { s with
    step := s.step + 1
    failed := (replyTo req s).isFail
    buf := bufAfter req (replyTo req s) s.buf
    trace := s.trace ++ [{ k := s.step + 1, req := req, reply := replyTo req s }]
    bus := busAfter req (replyTo req s) s.bus
    mem := memAfter req (replyTo req s) s.ptr s.mem
    ptr := ptrAfter req (replyTo req s) s.ptr
    answers := s.answers.tail
    draws := s.draws + 1
    resetIn := s.resetIn.map ResetAt.nearer }

/-! ### Acceptance, completion, failure, reset -/

/-- Acceptance (R158 first row, R190): the operation is latched, `step` is 0, `res` and `vout` are cleared, and for a
write `buf` takes the packed image, for a read it is empty. -/
def accept (o : Op) (image : List Byte) (s : State) : State :=
  { s with
    phase := .busy
    step := 0
    failed := false
    op := some o
    buf := Buf.ofBytes image
    res := none
    vout := none
    done := false }

/-- Nothing is known of the group's registers once a write has sent, or begun to send, its data: step 4 or later
(R57, D16, U12). -/
def forgetIfSent (s : State) : Memory :=
  match s.op with
  | some ⟨g, .write⟩ => if 4 ≤ s.step.val then Memory.forget s.mem (base g).toNat (len g) else s.mem
  | some ⟨_, .read⟩ | none => s.mem

/-- After a failed read `buf` is unspecified (R26, R161); a write's image stays. -/
def bufAfterFailure (s : State) : Buf :=
  match s.op with
  | some ⟨_, .read⟩ => Buf.unwritten
  | some ⟨_, .write⟩ | none => s.buf

/-- `raise TransactionFailure(k)` (R205; R158 third row), the block's one exception: no further request and no stop,
`res` FAIL, no `vout`, `phase` IDLE, `done`. Nothing is saved, and there is no handler and no return (R206); what the
failure leaves in the peripheral is R57. -/
def transactionFailure (s : State) : State :=
  { s with
    phase := .idle
    failed := false
    buf := bufAfterFailure s
    res := some .fail
    vout := none
    done := true
    mem := forgetIfSent s }

/-- Completion with every answer `ok` (R158 fourth row): `res` OK, and for a read `vout` the decoded value. -/
def completeOk (v : Option HostValue) (s : State) : State :=
  { s with
    phase := .idle
    failed := false
    res := some .ok
    vout := v
    done := true }

/-- Reset (R230, R231): the block's state takes its reset values, no request is issued. An operation in progress is
abandoned with no outcome: the bus is then `UNKNOWN`, and the peripheral's pointer and, if data had been sent, the
group's registers may hold anything (U12, U16). A bus that a previous failure left held stays so. The environment's
inputs stay. -/
def resetBlock (s : State) : State :=
  { s with
    phase := .idle
    step := 0
    failed := false
    op := none
    buf := Buf.unwritten
    res := none
    vout := none
    done := false
    trace := []
    bus := match s.phase with | .busy => .unknown | .idle => s.bus
    mem := match s.phase with | .busy => forgetIfSent s | .idle => s.mem
    ptr := match s.phase with | .busy => none | .idle => s.ptr
    resetIn := none }

/-- A reset lands now, before any further request is issued (R231). -/
def State.resetNow (s : State) : Bool :=
  match s.resetIn with
  | some ⟨0, false⟩ => true
  | some ⟨0, true⟩ | some ⟨_ + 1, _⟩ | none => false

/-- A reset lands once the next request has been issued, before its answer (R231). -/
def State.resetOutstanding (s : State) : Bool :=
  match s.resetIn with
  | some ⟨0, true⟩ => true
  | some ⟨0, false⟩ | some ⟨_ + 1, _⟩ | none => false

/-- The next request is issued and its answer never comes to the block (R231). -/
def issueUnanswered (s : State) : State := { s with step := s.step + 1 }

/-! ### The fallible sequence (R153) -/

/-- How a sequence ends: every request answered `ok`, the first `fail`, or a reset. -/
inductive RunEnd where
  | done
  | failed
  | abandoned
deriving DecidableEq, Repr

/-- `run(seq)`: the requests in order, up to the first `fail` (R153), unless a reset lands first (R231). -/
def runSeq : List Request → State → RunEnd × State
  | [], s => if s.resetNow then (.abandoned, s) else (.done, s)
  | req :: reqs, s =>
    if s.resetNow then (.abandoned, s)
    else if s.resetOutstanding then (.abandoned, issueUnanswered s)
    else if (issue req s).failed then
      (if (issue req s).resetNow then (.abandoned, issue req s) else (.failed, issue req s))
    else runSeq reqs (issue req s)

/-- `MemRead(addr, n)`: the `read_registers` transaction (R9, R154). The bytes are left in `buf`. -/
def memRead (start : Byte) (n : Nat) (s : State) : RunEnd × State := runSeq (readSeq start n) s

/-- `MemWrite(addr, n, v)`: the `write_registers` transaction (R9, R155). -/
def memWrite (start : Byte) (bytes : List Byte) (s : State) : RunEnd × State := runSeq (writeSeq start bytes) s

/-- The value an operation delivers when all its answers were `ok`: a read decodes `buf[0..LEN-1]`, a write delivers
none (R28, R158). -/
def delivered (o : Op) (s : State) : Option HostValue :=
  match o.dir with
  | .read => (Buf.bytes s.buf (len o.group)).bind (decodeGroup o.group)
  | .write => none

/-- The end of an operation (R180): the outcome is delivered, or a reset has abandoned it. -/
def finish (o : Op) (r : RunEnd × State) : State :=
  match r.1 with
  | .done => completeOk (delivered o r.2) r.2
  | .failed => transactionFailure r.2
  | .abandoned => resetBlock r.2

/-- Whether another operation is in progress on the bus: of this block, or of another master (R62, R235). -/
def State.busTaken (s : State) : Bool :=
  match s.phase with
  | .busy => true
  | .idle => s.otherMaster

/-- A whole read operation of a group, `READ_g` (R180). -/
def readGroup (g : Group) (s : State) : Host.Outcome State Fault Refusal :=
  match s.busTaken with
  | true => .fault .interleaved
  | false => .next (finish ⟨g, .read⟩ (memRead (base g) (len g) (accept ⟨g, .read⟩ [] s)))

/-- A whole write operation of a group with its packed image, `WRITE_g` (R180). -/
def writeGroup (g : Group) (image : List Byte) (s : State) : Host.Outcome State Fault Refusal :=
  match s.busTaken with
  | true => .fault .interleaved
  | false => .next (finish ⟨g, .write⟩ (memWrite (base g) image (accept ⟨g, .write⟩ image s)))

/-! ### The sequencer as a step relation (R158) -/

/-- What the sequencer does after `k` answered requests: the next request, or completion. -/
inductive SeqMove where
  | request (req : Request)
  | complete
  | unwritten
deriving DecidableEq, Repr

/-- The move after `k` answered requests of an operation (R158): request `k+1` of R154 or R155, the data of a write
taken from `buf[0..LEN-1]`; completion after the last. -/
def nextMove (o : Op) (buf : Buf) (k : Nat) : SeqMove :=
  match o.dir with
  | .read =>
    match (readSeq (base o.group) (len o.group))[k]? with
    | some req => .request req
    | none => .complete
  | .write =>
    match (writeSeq (base o.group) [])[k]?, Buf.bytes buf (len o.group) with
    | some (.txn _), some image => .request (.txn image)
    | some (.txn _), none => .unwritten
    | some req, _ => .request req
    | none, _ => .complete

/-- Complete an operation whose answers were all `ok`; a read whose bytes are not all in `buf` reads an unwritten byte
(R36). -/
def completeStep (o : Op) (s : State) : Host.Outcome State Fault Refusal :=
  match o.dir, delivered o s with
  | .read, none => .fault .bufUnwritten
  | .read, some v => .next (completeOk (some v) s)
  | .write, _ => .next (completeOk none s)

/-- One transition of the sequencer in `BUSY` with an operation latched (R158), or the reset that lands (R231). -/
def transitionOf (o : Op) (s : State) : Host.Outcome State Fault Refusal :=
  if s.resetNow then .next (resetBlock s)
  else if s.failed then .next (transactionFailure s)
  else
    match nextMove o s.buf s.step.val with
    | .complete => completeStep o s
    | .unwritten => .fault .bufUnwritten
    | .request req =>
      if s.resetOutstanding then .next (resetBlock (issueUnanswered s)) else .next (issue req s)

/-- One transition of the sequencer in `BUSY` (R158). -/
def transition (s : State) : Host.Outcome State Fault Refusal :=
  match s.otherMaster, s.op with
  | true, _ => .fault .interleaved
  | false, none => .fault .opUnlatched
  | false, some o => transitionOf o s

/-! ### Taking a command from the host port (R29, R190, R232) -/

/-- What the block finds on its inputs in `IDLE`. -/
inductive Fetched where
  /-- a reset lands (R231) -/
  | reset
  /-- no command is presented, or its payload is not all there: the block waits (R232) -/
  | wait
  /-- a reserved word (R73) -/
  | refuse (cmd : Byte)
  /-- a command, and the state with its bytes taken from the stream -/
  | run (i : Instr) (s : State)
deriving DecidableEq, Repr

/-- The block's look at its inputs in `IDLE` (R190). -/
def fetch (s : State) : Fetched :=
  match s.resetNow with
  | true => .reset
  | false =>
    match decode s.cmdIn with
    | .ok (i, rest) => .run i { s with cmdIn := rest }
    | .error .empty => .wait
    | .error .incomplete => .wait
    | .error (.reserved cmd) => .refuse cmd

/-- `s` with the command of a table word presented, its operand bytes 0, where the very next step takes it: the block is
idle, and no reset lands first. -/
def presentWord (s : State) (nbits w : Nat) : State :=
  { s with
    phase := .idle
    cmdIn := tableBytes nbits w
    resetIn := match s.resetNow with | true => none | false => s.resetIn }

end Sys2Proof.Machine
end

