-- ==== Sys2Proof/Machine/Alarm.lean ====
section
/-!
DEFINITION. The alarm commands (spec/43_operations.md R183 to R186).
-/

namespace Sys2Proof.Machine

/-- WRITE_ALARM1: encode the AlarmValue and write the 4 registers from 0x07 (R184). -/
def execWriteAlarm1 (a : AlarmValue) (s : State) : Host.Outcome State Fault Refusal :=
  writeGroup .alarm1 (encodeAlarm1 a).toList s

/-- READ_ALARM1: read the 4 registers from 0x07 and decode them (R183). -/
def execReadAlarm1 (s : State) : Host.Outcome State Fault Refusal := readGroup .alarm1 s

/-- WRITE_ALARM2: encode the AlarmValue without `m1` and `seconds` and write the 3 registers from 0x0B (R186). -/
def execWriteAlarm2 (a : AlarmValue) (s : State) : Host.Outcome State Fault Refusal :=
  writeGroup .alarm2 (encodeAlarm2 a).toList s

/-- READ_ALARM2: read the 3 registers from 0x0B and decode them, `m1` and `seconds` synthesised as 0 (R185). -/
def execReadAlarm2 (s : State) : Host.Outcome State Fault Refusal := readGroup .alarm2 s

end Sys2Proof.Machine
end

