-- ==== Sys2Proof/Machine/Clock.lean ====
section
/-!
DEFINITION. The clock commands (spec/43_operations.md R181, R182).
-/

namespace Sys2Proof.Machine

/-- WRITE_CLOCK: encode the ClockValue and write the 7 registers from 0x00 (R182). -/
def execWriteClock (v : ClockValue) (s : State) : Host.Outcome State Fault Refusal :=
  writeGroup .clock (encodeClock v).toList s

/-- READ_CLOCK: read the 7 registers from 0x00 and decode them (R181). -/
def execReadClock (s : State) : Host.Outcome State Fault Refusal := readGroup .clock s

end Sys2Proof.Machine
end

