-- ==== Sys2Proof/Machine/Control.lean ====
section
/-!
DEFINITION. The control commands (spec/43_operations.md R187, R188).
-/

namespace Sys2Proof.Machine

/-- WRITE_CONTROL: write the two raw bytes to 0x0E and 0x0F (R188). -/
def execWriteControl (c : ControlValue) (s : State) : Host.Outcome State Fault Refusal :=
  writeGroup .control (encodeControl c).toList s

/-- READ_CONTROL: read the two raw bytes from 0x0E and 0x0F (R187). -/
def execReadControl (s : State) : Host.Outcome State Fault Refusal := readGroup .control s

end Sys2Proof.Machine
end

