-- ==== Sys2Proof/Machine/Dispatch.lean ====
section
/-! DEFINITION. Dispatch: one arm per command, each one call of its meaning (spec/43_operations.md R181 to R188). -/

namespace Sys2Proof.Machine

def exec (i : Instr) (s : State) : Host.Outcome State Fault Refusal :=
  match i with
  | .writeClock v => Sys2Proof.Machine.execWriteClock v s
  | .readClock => Sys2Proof.Machine.execReadClock s
  | .writeAlarm1 a => Sys2Proof.Machine.execWriteAlarm1 a s
  | .readAlarm1 => Sys2Proof.Machine.execReadAlarm1 s
  | .writeAlarm2 a => Sys2Proof.Machine.execWriteAlarm2 a s
  | .readAlarm2 => Sys2Proof.Machine.execReadAlarm2 s
  | .writeControl c => Sys2Proof.Machine.execWriteControl c s
  | .readControl => Sys2Proof.Machine.execReadControl s

end Sys2Proof.Machine
end

