-- ==== Sys2Proof/Machine/Step.lean ====
section
/-!
DEFINITION. One step of the machine (spec/42_transactions.md R158; spec/43_operations.md R190).

In `IDLE` a step takes the next command from the host port and runs its whole operation (the whole-operation functions
of R180); with no command presented the block waits (R232). In `BUSY`, that is inside an operation, a step is one
transition of the sequencer (R158). The two agree (R158, R163).
-/

namespace Sys2Proof.Machine

def step (s : State) : Host.Outcome State Fault Refusal :=
  match s.phase with
  | .busy => transition s
  | .idle =>
    match fetch s with
    | .reset => .next (resetBlock s)
    | .wait => .next s
    | .refuse cmd => .refused (.reservedCommand cmd)
    | .run i s' => exec i s'

/-- `s` with a table word presented where the next step takes its command (notes/assumptions/4.md). -/
def State.withFetchWord (s : State) (nbits w : Nat) : State := presentWord s nbits w

end Sys2Proof.Machine
end

