-- ==== Sys2Proof/Machine/Assembler.lean ====
section
/-!
DEFINITION. The assembler of spec/30_encoding.md R89, on lines already cut into a mnemonic and named fields.

One command per line: the mnemonic, and for a write the host value in record notation. Fields may stand in any order; a
field left out is an error, not a default; there are no pseudo-instructions (R89, 92_eei_decisions.md D19). The
characters of a line (braces, commas, number bases) are not modelled (notes/assumptions/12.md).
-/

namespace Sys2Proof.Machine

/-- The eight mnemonics (R74, R89). -/
inductive Mnemonic where
  | WRITE_CLOCK
  | READ_CLOCK
  | WRITE_ALARM1
  | READ_ALARM1
  | WRITE_ALARM2
  | READ_ALARM2
  | WRITE_CONTROL
  | READ_CONTROL
deriving DecidableEq, Repr

/-- The field names of the record notation (R75 to R77, R89). -/
inductive FieldName where
  | seconds
  | minutes
  | hours
  | day
  | date
  | century
  | month
  | year
  | m1
  | m2
  | m3
  | m4
  | ctrl
  | stat
deriving DecidableEq, Repr

/-- One line: a mnemonic and its `field=value` pairs in the order they are written. -/
structure AsmLine where
  mnemonic : Mnemonic
  fields   : List (FieldName × Nat)
deriving DecidableEq, Repr

/-- Why a line is no command. -/
inductive AsmError where
  /-- a field is left out (R89) -/
  | missing (f : FieldName)
  /-- a field the command does not have -/
  | unknown (f : FieldName)
  /-- a field given twice -/
  | repeated (f : FieldName)
  /-- a value that does not fit the field's host width (D3) -/
  | tooWide (f : FieldName)
deriving DecidableEq, Repr

/-- The host width of a field (R75 to R77). -/
def FieldName.width : FieldName → Nat
  | .century | .m1 | .m2 | .m3 | .m4 => 1
  | .seconds | .minutes | .hours | .day | .date | .month | .year | .ctrl | .stat => 8

/-- The value of a field of a line. -/
def fieldValue (fs : List (FieldName × Nat)) (f : FieldName) : Except AsmError Nat :=
  match (fs.filter fun p => decide (p.1 = f)).map Prod.snd with
  | [] => .error (.missing f)
  | [v] => if v < 2 ^ f.width then .ok v else .error (.tooWide f)
  | _ :: _ :: _ => .error (.repeated f)

/-- An 8-bit field of a line. -/
def byteField (fs : List (FieldName × Nat)) (f : FieldName) : Except AsmError Byte :=
  (fieldValue fs f).map (BitVec.ofNat 8)

/-- A 1-bit field of a line. -/
def bitField (fs : List (FieldName × Nat)) (f : FieldName) : Except AsmError Bit :=
  (fieldValue fs f).map (BitVec.ofNat 1)

/-- The fields a line may have. -/
def fieldsOf : Mnemonic → List FieldName
  | .WRITE_CLOCK => [.seconds, .minutes, .hours, .day, .date, .century, .month, .year]
  | .WRITE_ALARM1 | .WRITE_ALARM2 => [.m1, .seconds, .m2, .minutes, .m3, .hours, .m4, .date]
  | .WRITE_CONTROL => [.ctrl, .stat]
  | .READ_CLOCK | .READ_ALARM1 | .READ_ALARM2 | .READ_CONTROL => []

/-- The ClockValue of a line. -/
def clockOfFields (fs : List (FieldName × Nat)) : Except AsmError ClockValue := do
  let seconds ← byteField fs .seconds
  let minutes ← byteField fs .minutes
  let hours ← byteField fs .hours
  let day ← byteField fs .day
  let date ← byteField fs .date
  let century ← bitField fs .century
  let month ← byteField fs .month
  let year ← byteField fs .year
  return { seconds, minutes, hours, day, date, century, month, year }

/-- The AlarmValue of a line. -/
def alarmOfFields (fs : List (FieldName × Nat)) : Except AsmError AlarmValue := do
  let m1 ← bitField fs .m1
  let seconds ← byteField fs .seconds
  let m2 ← bitField fs .m2
  let minutes ← byteField fs .minutes
  let m3 ← bitField fs .m3
  let hours ← byteField fs .hours
  let m4 ← bitField fs .m4
  let date ← byteField fs .date
  return { m1, seconds, m2, minutes, m3, hours, m4, date }

/-- The ControlValue of a line. -/
def controlOfFields (fs : List (FieldName × Nat)) : Except AsmError ControlValue := do
  let ctrl ← byteField fs .ctrl
  let stat ← byteField fs .stat
  return { ctrl, stat }

/-- The command of a line (R89). -/
def assemble (l : AsmLine) : Except AsmError Instr :=
  match l.fields.find? fun p => decide (p.1 ∉ fieldsOf l.mnemonic) with
  | some p => .error (.unknown p.1)
  | none =>
    match l.mnemonic with
    | .WRITE_CLOCK => (clockOfFields l.fields).map .writeClock
    | .READ_CLOCK => .ok .readClock
    | .WRITE_ALARM1 => (alarmOfFields l.fields).map .writeAlarm1
    | .READ_ALARM1 => .ok .readAlarm1
    | .WRITE_ALARM2 => (alarmOfFields l.fields).map .writeAlarm2
    | .READ_ALARM2 => .ok .readAlarm2
    | .WRITE_CONTROL => (controlOfFields l.fields).map .writeControl
    | .READ_CONTROL => .ok .readControl

/-- The command stream of a program: each line's command word and payload, in order (R88, R95). -/
def assembleProgram : List AsmLine → Except AsmError (List Byte)
  | [] => .ok []
  | l :: ls => do
    let i ← assemble l
    let bytes ← assembleProgram ls
    return encode i ++ bytes

end Sys2Proof.Machine
end

