-- ==== Sys2Proof/Machine/Wire.lean ====
section
/-!
DEFINITION. The bus elements of a trace: the frames of spec/30_encoding.md R85 to R87, element by element as
spec/42_transactions.md R150 gives them.
-/

namespace Sys2Proof.Machine

/-- A bus element: a start, a byte, a repeated start, a stop (R85). -/
inductive WireElem where
  | start
  | byte (b : Byte)
  | restart
  | stop
deriving DecidableEq, Repr

/-- The elements an `ok` request produces (R150). What a failed request left on the wire is not defined (R151). -/
def Event.wire (e : Event) : Option (List WireElem) :=
  match e.reply, e.req with
  | .fail, _ => none
  | .ok _, .begin => some [.start]
  | .ok _, .addr b => some [.byte b]
  | .ok _, .tx b => some [.byte b]
  | .ok _, .txn bs => some (bs.map .byte)
  | .ok bs, .rx _ => some (bs.map .byte)
  | .ok _, .restart => some [.restart]
  | .ok _, .stop => some [.stop]

/-- The bus frame of a list of events, if every request was answered `ok` (R85, R86). -/
def busFrame (es : List Event) : Option (List WireElem) := (allPresent (es.map Event.wire)).map List.flatten

end Sys2Proof.Machine
end

