-- ==== Sys2Proof/Safety.lean ====
section
/-!
DEFINITION. The terms claims are made in: when the block is ready for a command, what a run's answers are, and the
invariant of the machine.
-/

namespace Sys2Proof.Machine

/-- The block may take a command: it is IDLE (spec/43_operations.md R190), no other caller or master is using the bus
(spec/70_reset_and_hazards.md R233, R235), and no reset is on its way (R231). The transport's answers, the bus
condition and everything an earlier operation left are arbitrary. -/
def State.Ready (s : State) : Prop := s.phase = .idle ∧ s.otherMaster = false ∧ s.resetIn = none

/-- The transport answers the next `n` requests `ok` (R151). -/
def State.AnswersOk (s : State) (n : Nat) : Prop := ∀ j < n, s.answerAt j ≠ .fail

/-- The transport answers the next `k - 1` requests `ok` and the `k`-th `fail`: step `k` is the first failing step
(R153, R201). -/
def State.FailsAt (s : State) (k : Nat) : Prop := 1 ≤ k ∧ s.AnswersOk (k - 1) ∧ s.answerAt (k - 1) = .fail

/-- The bytes the sixth request of a read of group `g`, its receive, delivers (R154), from the state before the
command: the register pointer is then `BASE[g]`. -/
def State.rxBytes (s : State) (g : Group) : List Byte :=
  received (s.answerAt 5) s.mem (some (base g)) (s.draws + 5) (len g)

/-- The requests of a command's operation, in order (R154, R155, R158). -/
def requestsOf (i : Instr) : List Request :=
  match i.dir with
  | .read => readSeq (base i.group) (len i.group)
  | .write => writeSeq (base i.group) (imageOf i)

/-- The state right after the command is accepted (R158, first row). -/
def acceptCommand (i : Instr) (s : State) : State := accept ⟨i.group, i.dir⟩ (imageOf i) s

/-- The byte a BCD field packs to, in whole numbers: tens digit cut to `tw` bits, times 16, plus the ones digit (R104). -/
def bcdImage (v : Byte) (tw : Nat) : Nat := (v.toNat / 10 % 2 ^ tw) * 16 + v.toNat % 10

/-- The value a packed BCD byte unpacks to, in whole numbers: its tens field times 10 plus its ones field (R104). -/
def bcdValue (b : Byte) (tw : Nat) : Nat := (b.toNat / 16 % 2 ^ tw) * 10 + b.toNat % 16

/-- `n` steps, stopping at the first fault or refusal. -/
def runSteps : Nat → State → Host.Outcome State Fault Refusal
  | 0, s => .next s
  | n + 1, s =>
    match step s with
    | .next t => runSteps n t
    | .fault r => .fault r
    | .refused r => .refused r

/-- A request the block may issue: address bytes 0xD0 and 0xD1 (R152), register pointers 0x00, 0x07, 0x0B and 0x0E
(R48), and 7, 4, 3 or 2 data bytes (R54). -/
def Request.legal : Request → Bool
  | .addr b => b == 0xD0 || b == 0xD1
  | .tx b => b == 0x00 || b == 0x07 || b == 0x0B || b == 0x0E
  | .txn bs => bs.length == 7 || bs.length == 4 || bs.length == 3 || bs.length == 2
  | .rx n => n == 7 || n == 4 || n == 3 || n == 2
  | .begin | .restart | .stop => true

/-- What holds of an operation in progress (R23 to R28, R32, R158). -/
structure State.BusyInv (s : State) (o : Op) : Prop where
  /-- no outcome is delivered before completion (R27, R28) -/
  no_outcome : s.res = none ∧ s.vout = none ∧ s.done = false
  /-- the step index stays within the sequence (R24) -/
  step_range : s.step.val ≤ lastStep o.dir
  /-- after a `fail` the bus is UNKNOWN, and at least one request has been issued (R32) -/
  bus_failed : s.failed = true → s.bus = .unknown ∧ 1 ≤ s.step.val
  /-- from the `ok` begin to the stop the bus is HELD (R32) -/
  bus_held : s.failed = false → 1 ≤ s.step.val → s.step.val < lastStep o.dir → s.bus = .held
  /-- after the `ok` stop the bus is FREE (R32) -/
  bus_free : s.failed = false → s.step.val = lastStep o.dir → s.bus = .free
  /-- a write's image is in `buf` (R26) -/
  image_written : o.dir = .write → (Buf.bytes s.buf (len o.group)).isSome = true
  /-- a read's bytes are in `buf` once the receive has answered `ok` (R26, R154) -/
  bytes_received : o.dir = .read → s.failed = false → 6 ≤ s.step.val → (Buf.bytes s.buf (len o.group)).isSome = true
  /-- when the data is sent, the register pointer is the group's first address (R48, R154, R155) -/
  pointer_set : s.failed = false → s.step.val = 3 → s.ptr = some (base o.group)

/-- The invariant of the machine. -/
structure State.Inv (s : State) : Prop where
  /-- the peripheral's registers keep their canonical form -/
  memory_canonical : Memory.wf s.mem = true
  /-- only registers 0x00 to 0x0F are reached (R48) -/
  memory_reached : ∀ c ∈ s.mem, c.1 < 16
  /-- every request ever issued is one the block may issue (R48, R54, R152) -/
  trace_legal : ∀ e ∈ s.trace, Request.legal e.req = true
  /-- between operations: `done` goes with an outcome, and the bus is as the outcome left it (R27, R32) -/
  idle_outcome : s.phase = .idle →
    s.failed = false ∧ s.done = s.res.isSome ∧ (s.res = some .ok → s.bus = .free) ∧
      (s.res = some .fail → s.bus = .unknown)
  /-- a value is delivered only by a completed read that reports OK (R28); `op` stays latched (log entry 11) -/
  value_delivered : s.vout ≠ none → s.phase = .idle ∧ s.res = some .ok ∧ ∃ o, s.op = some o ∧ o.dir = .read
  /-- inside an operation -/
  busy_operation : s.phase = .busy → ∃ o, s.op = some o ∧ s.BusyInv o

end Sys2Proof.Machine
end

