-- ==== Sys2Proof/WellFormed.lean ====
section
/-!
DEFINITION. Which commands are well-formed, and the two ranges of host values the spec names.

The block checks no operand: every host value is encodable, and there is no illegal-operand or range failure
(spec/60_exceptions.md R200; spec/30_encoding.md R75, R77). The operands of `Instr` are typed by their widths, so no
term of `Instr` carries an operand the encoding has no bits for, and `Instr.wellFormed` holds of every term. The
checks that can fail are the host's own duty before a write (spec/70_reset_and_hazards.md R238): the REPRESENTABLE
range, inside which a field is stored as given (spec/40_bcd_codec.md R106), and the VALID range, inside which the
peripheral can make sense of it (spec/30_encoding.md R75, R76). The block itself never applies them.
-/

namespace Sys2Proof

/-- Representable clock fields (R106, R132): a tens digit of 3, 2, 1 or 4 bits, a day of 3 bits. -/
def ClockValue.representable (v : ClockValue) : Bool :=
  v.seconds ≤ 79 && v.minutes ≤ 79 && v.hours ≤ 39 && v.day ≤ 7 && v.date ≤ 39 && v.month ≤ 19 && v.year ≤ 159

/-- The source's valid clock ranges (R75). -/
def ClockValue.valid (v : ClockValue) : Bool :=
  v.seconds ≤ 59 && v.minutes ≤ 59 && v.hours ≤ 23 && (1 ≤ v.day && v.day ≤ 7) &&
    (1 ≤ v.date && v.date ≤ 31) && (1 ≤ v.month && v.month ≤ 12) && v.year ≤ 99

/-- Representable alarm fields (R106, R132). -/
def AlarmValue.representable (a : AlarmValue) : Bool :=
  a.seconds ≤ 79 && a.minutes ≤ 79 && a.hours ≤ 39 && a.date ≤ 39

/-- The valid alarm ranges, which the spec takes from the clock fields of the same names (R76, D3). -/
def AlarmValue.valid (a : AlarmValue) : Bool :=
  a.seconds ≤ 59 && a.minutes ≤ 59 && a.hours ≤ 23 && (1 ≤ a.date && a.date ≤ 31)

/-- Every command is well-formed: its operands are typed by their widths and no value is illegal (R77, R200). -/
def Instr.wellFormed : Instr → Bool
  | .writeClock _ | .readClock | .writeAlarm1 _ | .readAlarm1 => true
  | .writeAlarm2 _ | .readAlarm2 | .writeControl _ | .readControl => true

/-- The host's range check before a write (R238): the written value survives the packing unchanged. -/
def Instr.representable : Instr → Bool
  | .writeClock v => v.representable
  | .writeAlarm1 a => a.representable
  | .writeAlarm2 a => a.minutes ≤ 79 && a.hours ≤ 39 && a.date ≤ 39
  | .readClock | .readAlarm1 | .readAlarm2 | .writeControl _ | .readControl => true

/-- The host's range check that the peripheral can make sense of what is written (R238, R75, R76). -/
def Instr.valid : Instr → Bool
  | .writeClock v => v.valid
  | .writeAlarm1 a => a.valid
  | .writeAlarm2 a => a.minutes ≤ 59 && a.hours ≤ 23 && (1 ≤ a.date && a.date ≤ 31)
  | .readClock | .readAlarm1 | .readAlarm2 | .writeControl _ | .readControl => true

end Sys2Proof
end

