-- ==== Sys2Proof/Certificates/Slice0/Obligations.lean ====
section
/-!
DEFINITION. The statements for the provers, family by family.

In every statement `Ready` says that the block is IDLE, no other caller or master uses the bus and no reset is on its
way. The transport's answers are universally quantified throughout: given as input or drawn freely.
-/

open Sys2Proof Sys2Proof.Machine

/-! ### Encodings (spec/30_encoding.md) -/

/-- The eight words of the opcode map decode to their commands, write payloads all zero. The words are the spec's own
decision D2. -/
def Obligations.CommandWordsDecode : Prop :=
  decode [0x01] = .ok (.readClock, []) ∧
  decode [0x03] = .ok (.readAlarm1, []) ∧
  decode [0x05] = .ok (.readAlarm2, []) ∧
  decode [0x07] = .ok (.readControl, []) ∧
  decode [0x00, 0, 0, 0, 0, 0, 0, 0, 0] = .ok (.writeClock ⟨0, 0, 0, 0, 0, 0, 0, 0⟩, []) ∧
  decode [0x02, 0, 0, 0, 0, 0, 0, 0, 0] = .ok (.writeAlarm1 ⟨0, 0, 0, 0, 0, 0, 0, 0⟩, []) ∧
  decode [0x04, 0, 0, 0, 0, 0, 0, 0, 0] = .ok (.writeAlarm2 ⟨0, 0, 0, 0, 0, 0, 0, 0⟩, []) ∧
  decode [0x06, 0, 0] = .ok (.writeControl ⟨0, 0⟩, [])

/-- A flag is bit 0 of its payload byte and bits 7:1 are ignored; integer fields are taken as they are.
The serialisation is the spec's own decision (D3, D23). -/
def Obligations.PayloadFlagBitsIgnored : Prop :=
  (∀ (b0 b1 b2 b3 b4 b5 b6 b7 : Byte) (rest : List Byte), ∃ v : ClockValue,
    decode (0x00 :: b0 :: b1 :: b2 :: b3 :: b4 :: b5 :: b6 :: b7 :: rest) = .ok (.writeClock v, rest) ∧
    v.seconds = b0 ∧ v.minutes = b1 ∧ v.hours = b2 ∧ v.day = b3 ∧ v.date = b4 ∧
    v.century.toNat = b5.toNat % 2 ∧ v.month = b6 ∧ v.year = b7) ∧
  (∀ (b0 b1 b2 b3 b4 b5 b6 b7 : Byte) (rest : List Byte), ∃ a : AlarmValue,
    decode (0x02 :: b0 :: b1 :: b2 :: b3 :: b4 :: b5 :: b6 :: b7 :: rest) = .ok (.writeAlarm1 a, rest) ∧
    decode (0x04 :: b0 :: b1 :: b2 :: b3 :: b4 :: b5 :: b6 :: b7 :: rest) = .ok (.writeAlarm2 a, rest) ∧
    a.m1.toNat = b0.toNat % 2 ∧ a.seconds = b1 ∧ a.m2.toNat = b2.toNat % 2 ∧ a.minutes = b3 ∧
    a.m3.toNat = b4.toNat % 2 ∧ a.hours = b5 ∧ a.m4.toNat = b6.toNat % 2 ∧ a.date = b7)

/-- Decoding an encoded command gives it back, whatever follows it in the stream.
The encoding is the spec's own decision (D2, D23). -/
def Obligations.DecodeEncodeRoundTrip : Prop :=
  ∀ (i : Instr) (rest : List Byte), i.wellFormed = true → decode (encode i ++ rest) = .ok (i, rest)

/-- A reserved word, 0x08 to 0xFF, is refused, and a step refuses nothing else.
The refusal is the spec's own decision D14. -/
def Obligations.ReservedWordsRefused : Prop :=
  (∀ (s : State) (cmd : Byte) (rest : List Byte), s.phase = .idle → s.resetNow = false → s.cmdIn = cmd :: rest →
    8 ≤ cmd.toNat → step s = .refused (.reservedCommand cmd)) ∧
  (∀ (s : State) (r : Refusal), step s = .refused r →
    ∃ cmd rest, r = .reservedCommand cmd ∧ 8 ≤ cmd.toNat ∧ s.phase = .idle ∧ s.cmdIn = cmd :: rest)

/-- A step of an idle block runs the command the decoder reads, with that command's bytes taken from the stream.
One step for a whole operation is the model's choice (log entry 3); the port is the spec's decision D23. -/
def Obligations.StepRunsDecodedCommand : Prop :=
  ∀ (s : State) (i : Instr) (rest : List Byte), s.phase = .idle → s.resetNow = false → i.wellFormed = true →
    decode s.cmdIn = .ok (i, rest) → step s = exec i { s with cmdIn := rest }

/-- With no command presented the block waits: an empty stream, or a valid word whose payload is not all there. That the
second is no command yet is the model's choice (log entry 13). -/
def Obligations.WaitsWithoutCommand : Prop :=
  ∀ s : State, s.phase = .idle → s.resetNow = false →
    (s.cmdIn = [] → step s = .next s) ∧
    (∀ (cmd : Byte) (rest : List Byte), s.cmdIn = cmd :: rest →
      ((cmd = 0x00 ∨ cmd = 0x02 ∨ cmd = 0x04) ∧ rest.length < 8) ∨ (cmd = 0x06 ∧ rest.length < 2) → step s = .next s)

/-- Inside an operation no command is accepted: the stream stays as it is, and the latched operation stays latched until
it completes or is abandoned.
Not accepting a command while BUSY is the spec's decision D11, the reset D10. -/
def Obligations.BusyTakesNoCommand : Prop :=
  ∀ s t : State, s.phase = .busy → step s = .next t →
    t.cmdIn = s.cmdIn ∧ (t.op = s.op ∨ (t.phase = .idle ∧ t.op = none ∧ t.res = none))

/-! ### The constant table (spec/10_state.md R31) -/

/-- The constants of R31. -/
def Obligations.ConstantTable : Prop :=
  devAddr .write = 0xD0 ∧ devAddr .read = 0xD1 ∧
  base .clock = 0x00 ∧ len .clock = 7 ∧ base .alarm1 = 0x07 ∧ len .alarm1 = 4 ∧
  base .alarm2 = 0x0B ∧ len .alarm2 = 3 ∧ base .control = 0x0E ∧ len .control = 2

/-! ### BCD fields (spec/40_bcd_codec.md) -/

/-- Decoding a digit pair is `tens*10 + ones`, no digit rejected and no wrap, for every digit value a field can hold. -/
def Obligations.DecodeBcdFieldArithmetic : Prop :=
  ∀ tens ones : Byte, tens.toNat ≤ 15 → ones.toNat ≤ 15 →
    (decodeBcdField tens ones).toNat = tens.toNat * 10 + ones.toNat

/-- Encoding a value gives quotient and remainder by 10, for all 256 values. -/
def Obligations.EncodeBcdFieldArithmetic : Prop :=
  ∀ v : Byte, (encodeBcdField v).1.toNat = v.toNat / 10 ∧ (encodeBcdField v).2.toNat = v.toNat % 10

/-- Packing and unpacking a BCD byte, in whole numbers, for every tens width. -/
def Obligations.PackUnpackBcdArithmetic : Prop :=
  ∀ (v : Byte) (tw : Nat), 1 ≤ tw → tw ≤ 4 →
    (packBcd v tw).toNat = (v.toNat / 10 % 2 ^ tw) * 16 + v.toNat % 10 ∧
    (unpackBcd v tw).toNat = (v.toNat / 16 % 2 ^ tw) * 10 + v.toNat % 16

/-- Packing and unpacking a plain field, in whole numbers, for every field inside a byte. -/
def Obligations.PackUnpackPlainArithmetic : Prop :=
  ∀ (v : Byte) (lo w : Nat), lo + w ≤ 8 →
    (packPlain v lo w).toNat = (v.toNat % 2 ^ w) * 2 ^ lo ∧
    (unpackPlain v lo w).toNat = v.toNat / 2 ^ lo % 2 ^ w

/-- The truncation law, and the round trip exactly on the representable range.
Truncation is the spec's decision D4; the law is marked [derived] in the spec (R106, R107). -/
def Obligations.BcdRoundTripTruncates : Prop :=
  ∀ (v : Byte) (tw : Nat), 1 ≤ tw → tw ≤ 4 →
    (unpackBcd (packBcd v tw) tw).toNat = (v.toNat / 10 % 2 ^ tw) * 10 + v.toNat % 10 ∧
    (unpackBcd (packBcd v tw) tw = v ↔ v.toNat ≤ 10 * (2 ^ tw - 1) + 9)

/-! ### The register codec (spec/41_register_codec.md) -/

/-- Encode then decode: every clock field comes back cut to its own width, whatever the other fields are.
The layout is the spec's decision D5, truncation D4 (R107, R131, [derived]). -/
def Obligations.ClockFieldsTruncateIndependently : Prop :=
  ∀ v : ClockValue,
    (decodeClock (encodeClock v)).seconds.toNat = (v.seconds.toNat / 10 % 8) * 10 + v.seconds.toNat % 10 ∧
    (decodeClock (encodeClock v)).minutes.toNat = (v.minutes.toNat / 10 % 8) * 10 + v.minutes.toNat % 10 ∧
    (decodeClock (encodeClock v)).hours.toNat = (v.hours.toNat / 10 % 4) * 10 + v.hours.toNat % 10 ∧
    (decodeClock (encodeClock v)).day.toNat = v.day.toNat % 8 ∧
    (decodeClock (encodeClock v)).date.toNat = (v.date.toNat / 10 % 4) * 10 + v.date.toNat % 10 ∧
    (decodeClock (encodeClock v)).century = v.century ∧
    (decodeClock (encodeClock v)).month.toNat = (v.month.toNat / 10 % 2) * 10 + v.month.toNat % 10 ∧
    (decodeClock (encodeClock v)).year.toNat = (v.year.toNat / 10 % 16) * 10 + v.year.toNat % 10

/-- Decode after encode is the identity exactly on the representable clock values.
The layout is the spec's decision D5 (R132, [derived]). -/
def Obligations.ClockRoundTripExactlyRepresentable : Prop :=
  ∀ v : ClockValue, decodeClock (encodeClock v) = v ↔
    v.seconds.toNat ≤ 79 ∧ v.minutes.toNat ≤ 79 ∧ v.hours.toNat ≤ 39 ∧ v.day.toNat ≤ 7 ∧ v.date.toNat ≤ 39 ∧
      v.month.toNat ≤ 19 ∧ v.year.toNat ≤ 159

/-- The same for alarm 1, and for alarm 2 with `m1` and `seconds` replaced by 0.
The layout is the spec's decision D5 (R132, [derived]). -/
def Obligations.AlarmRoundTripExactlyRepresentable : Prop :=
  ∀ a : AlarmValue,
    (decodeAlarm1 (encodeAlarm1 a) = a ↔
      a.seconds.toNat ≤ 79 ∧ a.minutes.toNat ≤ 79 ∧ a.hours.toNat ≤ 39 ∧ a.date.toNat ≤ 39) ∧
    (decodeAlarm2 (encodeAlarm2 a) = { a with m1 := 0, seconds := 0 } ↔
      a.minutes.toNat ≤ 79 ∧ a.hours.toNat ≤ 39 ∧ a.date.toNat ≤ 39)

/-- Encode after decode clears the reserved bits and is otherwise the identity exactly when every ones digit is
decimal.
The layout is the spec's decision D5 (R133, [derived]). -/
def Obligations.ClockReencodesExactlyDecimalOnes : Prop :=
  ∀ p : Vector Byte 7,
    (∀ j (h : j < 7), (encodeClock (decodeClock p))[j] = p[j] &&& ~~~rsvClock[j]) ↔
      p[0].toNat % 16 ≤ 9 ∧ p[1].toNat % 16 ≤ 9 ∧ p[2].toNat % 16 ≤ 9 ∧ p[4].toNat % 16 ≤ 9 ∧
        p[5].toNat % 16 ≤ 9 ∧ p[6].toNat % 16 ≤ 9

/-- The same for the alarm images, and without condition for the control image.
The layout is the spec's decision D5, the reserved alarm bits D6 (R133, [derived]). -/
def Obligations.AlarmAndControlReencode : Prop :=
  (∀ p : Vector Byte 4,
    (∀ j (h : j < 4), (encodeAlarm1 (decodeAlarm1 p))[j] = p[j] &&& ~~~rsvAlarm1[j]) ↔
      ∀ j (h : j < 4), p[j].toNat % 16 ≤ 9) ∧
  (∀ p : Vector Byte 3,
    (∀ j (h : j < 3), (encodeAlarm2 (decodeAlarm2 p))[j] = p[j] &&& ~~~rsvAlarm2[j]) ↔
      ∀ j (h : j < 3), p[j].toNat % 16 ≤ 9) ∧
  (∀ p : Vector Byte 2, encodeControl (decodeControl p) = p)

/-- Reserved bits of every packed image are zero, whatever the host value.
The alarm half is the spec's decision D6, the positions D5 (R128, [derived]). -/
def Obligations.ReservedBitsZero : Prop :=
  (∀ (v : ClockValue) (j : Nat) (h : j < 7),
    (encodeClock v)[j] &&& (#v[0x80, 0x80, 0xC0, 0xF8, 0xC0, 0x60, 0x00] : Vector Byte 7)[j] = 0) ∧
  (∀ (a : AlarmValue) (j : Nat) (h : j < 4),
    (encodeAlarm1 a)[j] &&& (#v[0x00, 0x00, 0x40, 0x40] : Vector Byte 4)[j] = 0) ∧
  (∀ (a : AlarmValue) (j : Nat) (h : j < 3),
    (encodeAlarm2 a)[j] &&& (#v[0x00, 0x40, 0x40] : Vector Byte 3)[j] = 0)

/-- Alarm-2 decode always yields `m1 = 0` and `seconds = 0`. -/
def Obligations.Alarm2Synthesised : Prop :=
  ∀ p : Vector Byte 3, (decodeAlarm2 p).m1 = 0 ∧ (decodeAlarm2 p).seconds = 0

/-- The control codec copies both bytes unchanged, in both directions. -/
def Obligations.ControlCopiedByteForByte : Prop :=
  (∀ c : ControlValue, (encodeControl c).toList = [c.ctrl, c.stat]) ∧
  (∀ p : Vector Byte 2, (decodeControl p).ctrl = p[0] ∧ (decodeControl p).stat = p[1])

/-! ### The eight commands (spec/43_operations.md)

In the eight statements below the field positions rest on the spec's own decision D5, truncation on D4, the one transmit
request of a write on D7, the absent value of a failed read on D8 and the transport's free answers on D13. -/

/-- READ_CLOCK: with every answer `ok` it issues its seven requests and delivers the decoded bytes; with a first
failing step it reports FAIL and delivers nothing. -/
def Obligations.ReadClockDelivers : Prop :=
  ∀ s : State, s.Ready →
    (∀ p0 p1 p2 p3 p4 p5 p6 : Byte, s.AnswersOk 7 → s.rxBytes .clock = [p0, p1, p2, p3, p4, p5, p6] →
      ∃ (t : State) (v : ClockValue), exec .readClock s = .next t ∧ t.res = some .ok ∧ t.vout = some (.clock v) ∧
        t.phase = .idle ∧ t.done = true ∧
        v.seconds.toNat = bcdValue p0 3 ∧ v.minutes.toNat = bcdValue p1 3 ∧ v.hours.toNat = bcdValue p2 2 ∧
        v.day.toNat = p3.toNat % 8 ∧ v.date.toNat = bcdValue p4 2 ∧ v.century.toNat = p5.toNat / 128 ∧
        v.month.toNat = bcdValue p5 1 ∧ v.year.toNat = bcdValue p6 4 ∧
        t.trace = s.trace ++ [⟨1, .begin, .ok []⟩, ⟨2, .addr 0xD0, .ok []⟩, ⟨3, .tx 0x00, .ok []⟩, ⟨4, .restart, .ok []⟩,
          ⟨5, .addr 0xD1, .ok []⟩, ⟨6, .rx 7, .ok [p0, p1, p2, p3, p4, p5, p6]⟩, ⟨7, .stop, .ok []⟩]) ∧
    (∀ k ≤ 7, s.FailsAt k → ∃ t : State, exec .readClock s = .next t ∧ t.res = some .fail ∧ t.vout = none ∧
      t.phase = .idle ∧ t.done = true)

/-- READ_ALARM1, likewise. -/
def Obligations.ReadAlarm1Delivers : Prop :=
  ∀ s : State, s.Ready →
    (∀ p0 p1 p2 p3 : Byte, s.AnswersOk 7 → s.rxBytes .alarm1 = [p0, p1, p2, p3] →
      ∃ (t : State) (a : AlarmValue), exec .readAlarm1 s = .next t ∧ t.res = some .ok ∧ t.vout = some (.alarm a) ∧
        t.phase = .idle ∧ t.done = true ∧
        a.m1.toNat = p0.toNat / 128 ∧ a.seconds.toNat = bcdValue p0 3 ∧
        a.m2.toNat = p1.toNat / 128 ∧ a.minutes.toNat = bcdValue p1 3 ∧
        a.m3.toNat = p2.toNat / 128 ∧ a.hours.toNat = bcdValue p2 2 ∧
        a.m4.toNat = p3.toNat / 128 ∧ a.date.toNat = bcdValue p3 2 ∧
        t.trace = s.trace ++ [⟨1, .begin, .ok []⟩, ⟨2, .addr 0xD0, .ok []⟩, ⟨3, .tx 0x07, .ok []⟩, ⟨4, .restart, .ok []⟩,
          ⟨5, .addr 0xD1, .ok []⟩, ⟨6, .rx 4, .ok [p0, p1, p2, p3]⟩, ⟨7, .stop, .ok []⟩]) ∧
    (∀ k ≤ 7, s.FailsAt k → ∃ t : State, exec .readAlarm1 s = .next t ∧ t.res = some .fail ∧ t.vout = none ∧
      t.phase = .idle ∧ t.done = true)

/-- READ_ALARM2, likewise, with `m1` and `seconds` 0. -/
def Obligations.ReadAlarm2Delivers : Prop :=
  ∀ s : State, s.Ready →
    (∀ p0 p1 p2 : Byte, s.AnswersOk 7 → s.rxBytes .alarm2 = [p0, p1, p2] →
      ∃ (t : State) (a : AlarmValue), exec .readAlarm2 s = .next t ∧ t.res = some .ok ∧ t.vout = some (.alarm a) ∧
        t.phase = .idle ∧ t.done = true ∧
        a.m1 = 0 ∧ a.seconds = 0 ∧
        a.m2.toNat = p0.toNat / 128 ∧ a.minutes.toNat = bcdValue p0 3 ∧
        a.m3.toNat = p1.toNat / 128 ∧ a.hours.toNat = bcdValue p1 2 ∧
        a.m4.toNat = p2.toNat / 128 ∧ a.date.toNat = bcdValue p2 2 ∧
        t.trace = s.trace ++ [⟨1, .begin, .ok []⟩, ⟨2, .addr 0xD0, .ok []⟩, ⟨3, .tx 0x0B, .ok []⟩, ⟨4, .restart, .ok []⟩,
          ⟨5, .addr 0xD1, .ok []⟩, ⟨6, .rx 3, .ok [p0, p1, p2]⟩, ⟨7, .stop, .ok []⟩]) ∧
    (∀ k ≤ 7, s.FailsAt k → ∃ t : State, exec .readAlarm2 s = .next t ∧ t.res = some .fail ∧ t.vout = none ∧
      t.phase = .idle ∧ t.done = true)

/-- READ_CONTROL: what the peripheral returns is delivered bit for bit. -/
def Obligations.ReadControlDelivers : Prop :=
  ∀ s : State, s.Ready →
    (∀ p0 p1 : Byte, s.AnswersOk 7 → s.rxBytes .control = [p0, p1] →
      ∃ t : State, exec .readControl s = .next t ∧ t.res = some .ok ∧ t.vout = some (.control ⟨p0, p1⟩) ∧
        t.phase = .idle ∧ t.done = true ∧
        t.trace = s.trace ++ [⟨1, .begin, .ok []⟩, ⟨2, .addr 0xD0, .ok []⟩, ⟨3, .tx 0x0E, .ok []⟩, ⟨4, .restart, .ok []⟩,
          ⟨5, .addr 0xD1, .ok []⟩, ⟨6, .rx 2, .ok [p0, p1]⟩, ⟨7, .stop, .ok []⟩]) ∧
    (∀ k ≤ 7, s.FailsAt k → ∃ t : State, exec .readControl s = .next t ∧ t.res = some .fail ∧ t.vout = none ∧
      t.phase = .idle ∧ t.done = true)

/-- WRITE_CLOCK: with every answer `ok` it sends the encoded bytes in its five requests and reports OK, out-of-range
fields truncated; with a first failing step it reports FAIL. It delivers no value. -/
def Obligations.WriteClockSends : Prop :=
  ∀ (s : State) (v : ClockValue), s.Ready →
    (s.AnswersOk 5 →
      ∃ (t : State) (b0 b1 b2 b3 b4 b5 b6 : Byte), exec (.writeClock v) s = .next t ∧ t.res = some .ok ∧
        t.vout = none ∧ t.phase = .idle ∧ t.done = true ∧
        b0.toNat = bcdImage v.seconds 3 ∧ b1.toNat = bcdImage v.minutes 3 ∧ b2.toNat = bcdImage v.hours 2 ∧
        b3.toNat = v.day.toNat % 8 ∧ b4.toNat = bcdImage v.date 2 ∧
        b5.toNat = bcdImage v.month 1 + 128 * v.century.toNat ∧ b6.toNat = bcdImage v.year 4 ∧
        t.trace = s.trace ++ [⟨1, .begin, .ok []⟩, ⟨2, .addr 0xD0, .ok []⟩, ⟨3, .tx 0x00, .ok []⟩,
          ⟨4, .txn [b0, b1, b2, b3, b4, b5, b6], .ok []⟩, ⟨5, .stop, .ok []⟩]) ∧
    (∀ k ≤ 5, s.FailsAt k → ∃ t : State, exec (.writeClock v) s = .next t ∧ t.res = some .fail ∧ t.vout = none ∧
      t.phase = .idle ∧ t.done = true)

/-- WRITE_ALARM1, likewise; a truncated field never reaches a mask flag. -/
def Obligations.WriteAlarm1Sends : Prop :=
  ∀ (s : State) (a : AlarmValue), s.Ready →
    (s.AnswersOk 5 →
      ∃ (t : State) (b0 b1 b2 b3 : Byte), exec (.writeAlarm1 a) s = .next t ∧ t.res = some .ok ∧
        t.vout = none ∧ t.phase = .idle ∧ t.done = true ∧
        b0.toNat = 128 * a.m1.toNat + bcdImage a.seconds 3 ∧ b1.toNat = 128 * a.m2.toNat + bcdImage a.minutes 3 ∧
        b2.toNat = 128 * a.m3.toNat + bcdImage a.hours 2 ∧ b3.toNat = 128 * a.m4.toNat + bcdImage a.date 2 ∧
        t.trace = s.trace ++ [⟨1, .begin, .ok []⟩, ⟨2, .addr 0xD0, .ok []⟩, ⟨3, .tx 0x07, .ok []⟩,
          ⟨4, .txn [b0, b1, b2, b3], .ok []⟩, ⟨5, .stop, .ok []⟩]) ∧
    (∀ k ≤ 5, s.FailsAt k → ∃ t : State, exec (.writeAlarm1 a) s = .next t ∧ t.res = some .fail ∧ t.vout = none ∧
      t.phase = .idle ∧ t.done = true)

/-- WRITE_ALARM2, likewise; `m1` and `seconds` have no effect on anything. -/
def Obligations.WriteAlarm2Sends : Prop :=
  ∀ (s : State) (a : AlarmValue), s.Ready →
    (s.AnswersOk 5 →
      ∃ (t : State) (b0 b1 b2 : Byte), exec (.writeAlarm2 a) s = .next t ∧ t.res = some .ok ∧
        t.vout = none ∧ t.phase = .idle ∧ t.done = true ∧
        b0.toNat = 128 * a.m2.toNat + bcdImage a.minutes 3 ∧ b1.toNat = 128 * a.m3.toNat + bcdImage a.hours 2 ∧
        b2.toNat = 128 * a.m4.toNat + bcdImage a.date 2 ∧
        t.trace = s.trace ++ [⟨1, .begin, .ok []⟩, ⟨2, .addr 0xD0, .ok []⟩, ⟨3, .tx 0x0B, .ok []⟩,
          ⟨4, .txn [b0, b1, b2], .ok []⟩, ⟨5, .stop, .ok []⟩]) ∧
    (∀ k ≤ 5, s.FailsAt k → ∃ t : State, exec (.writeAlarm2 a) s = .next t ∧ t.res = some .fail ∧ t.vout = none ∧
      t.phase = .idle ∧ t.done = true) ∧
    (∀ (m : Bit) (x : Byte), exec (.writeAlarm2 { a with m1 := m, seconds := x }) s = exec (.writeAlarm2 a) s)

/-- WRITE_CONTROL: all 16 bits are sent unchanged. -/
def Obligations.WriteControlSends : Prop :=
  ∀ (s : State) (c : ControlValue), s.Ready →
    (s.AnswersOk 5 →
      ∃ t : State, exec (.writeControl c) s = .next t ∧ t.res = some .ok ∧
        t.vout = none ∧ t.phase = .idle ∧ t.done = true ∧
        t.trace = s.trace ++ [⟨1, .begin, .ok []⟩, ⟨2, .addr 0xD0, .ok []⟩, ⟨3, .tx 0x0E, .ok []⟩,
          ⟨4, .txn [c.ctrl, c.stat], .ok []⟩, ⟨5, .stop, .ok []⟩]) ∧
    (∀ k ≤ 5, s.FailsAt k → ∃ t : State, exec (.writeControl c) s = .next t ∧ t.res = some .fail ∧ t.vout = none ∧
      t.phase = .idle ∧ t.done = true)

/-- Every command of a ready block completes with one of two outcomes: OK if every step answered `ok`, FAIL if any
answered `fail`.
That a failed read delivers no value is the spec's decision D8. -/
def Obligations.OutcomeOkExactlyAllAnswersOk : Prop :=
  ∀ (i : Instr) (s : State), s.Ready →
    ∃ t : State, exec i s = .next t ∧ t.phase = .idle ∧ t.done = true ∧
      (t.res = some .ok ↔ s.AnswersOk (lastStep i.dir)) ∧
      (t.res = some .fail ↔ ∃ j < lastStep i.dir, s.answerAt j = .fail) ∧
      (t.vout ≠ none ↔ i.dir = .read ∧ t.res = some .ok)

/-- The first failing step `k` ends the operation: the requests of steps 1 to `k` have been issued, in order and once
each, only the last answered `fail`; no stop and no other request follows; the bus is left UNKNOWN.
(The absent value is the spec's decision D8, the bus condition D9, the exact count of events its inference R163; how
answers are consumed is log entry 1.) -/
def Obligations.FirstFailEndsOperation : Prop :=
  ∀ (i : Instr) (s : State) (k : Nat), s.Ready → k ≤ lastStep i.dir → s.FailsAt k →
    ∃ (t : State) (es : List Event), exec i s = .next t ∧ t.trace = s.trace ++ es ∧ es.length = k ∧
      es.map Event.req = (requestsOf i).take k ∧ (es.map fun e => e.k.val) = List.range' 1 k ∧
      (∀ j (h : j < es.length), es[j].reply = .fail ↔ j + 1 = k) ∧
      t.answers = s.answers.drop k ∧ t.step.val = k ∧
      t.res = some .fail ∧ t.vout = none ∧ t.phase = .idle ∧ t.bus = .unknown

/-- Every operation of a group sends that group's register pointer and moves exactly that group's number of bytes,
whatever the host value and the answers are.
The spec marks the rule as its own inference (R189). -/
def Obligations.AddressFixity : Prop :=
  ∀ (i : Instr) (s : State), s.Ready →
    ∃ (t : State) (es : List Event), exec i s = .next t ∧ t.trace = s.trace ++ es ∧
      ∀ e ∈ es,
        (∀ b, e.req = .tx b →
          b = match i.group with | .clock => 0x00 | .alarm1 => 0x07 | .alarm2 => 0x0B | .control => 0x0E) ∧
        (∀ bs, e.req = .txn bs →
          bs.length = match i.group with | .clock => 7 | .alarm1 => 4 | .alarm2 => 3 | .control => 2) ∧
        (∀ n, e.req = .rx n →
          n = match i.group with | .clock => 7 | .alarm1 => 4 | .alarm2 => 3 | .control => 2) ∧
        (∀ b, e.req = .addr b → b = 0xD0 ∨ (i.dir = .read ∧ b = 0xD1))

/-- The bus frame of a successful read of a group. -/
def Obligations.ReadFrameOnBus : Prop :=
  ∀ (i : Instr) (s : State), i.dir = .read → s.Ready → s.AnswersOk 7 →
    ∃ (t : State) (es : List Event) (d : List Byte), exec i s = .next t ∧ t.trace = s.trace ++ es ∧
      d.length = len i.group ∧ d = s.rxBytes i.group ∧
      busFrame es = some ([.start, .byte 0xD0, .byte (base i.group), .restart, .byte 0xD1] ++ d.map .byte ++ [.stop])

/-- The bus frame of a successful write of a group with its packed image. -/
def Obligations.WriteFrameOnBus : Prop :=
  ∀ (i : Instr) (s : State), i.dir = .write → s.Ready → s.AnswersOk 5 →
    ∃ (t : State) (es : List Event), exec i s = .next t ∧ t.trace = s.trace ++ es ∧
      (imageOf i).length = len i.group ∧
      busFrame es = some ([.start, .byte 0xD0, .byte (base i.group)] ++ (imageOf i).map .byte ++ [.stop])

/-- The frame of every command: the host's stream and the other masters are untouched; a read leaves every register of
the peripheral as it was, a write every register outside its group. (`phase`, `step`, `op`, `buf`, `res`, `vout`,
`done`, `trace`, `bus`, `ptr`, `answers` and `draws` are what an operation works on.)
That reads leave the registers as they are and bytes land from the pointer on is the reference environment (D15, D17; log entry 6). -/
def Obligations.CommandFrame : Prop :=
  ∀ (i : Instr) (s t : State), exec i s = .next t →
    t.cmdIn = s.cmdIn ∧ t.otherMaster = s.otherMaster ∧ (s.resetIn = none → t.resetIn = none) ∧
    (i.dir = .read → ∀ a, Memory.read t.mem a = Memory.read s.mem a) ∧
    (i.dir = .write → ∀ a, (a < (base i.group).toNat ∨ (base i.group).toNat + len i.group ≤ a) →
      Memory.read t.mem a = Memory.read s.mem a)

/-- What a write does to its group's registers: byte i of the image lands at `BASE + i`; a failure at step 1, 2 or 3
leaves them unchanged; after one at step 4 or 5 nothing is known of them. The pointer's behaviour and the failure's
effect are the spec's decisions D15 and D16 about the environment. -/
def Obligations.WriteEffectOnPeripheral : Prop :=
  ∀ (i : Instr) (s : State), i.dir = .write → s.Ready →
    (s.AnswersOk 5 → ∃ t : State, exec i s = .next t ∧
      ∀ j < len i.group, Memory.read t.mem ((base i.group).toNat + j) = (imageOf i)[j]?) ∧
    (∀ k ≤ 3, s.FailsAt k → ∃ t : State, exec i s = .next t ∧ t.mem = s.mem) ∧
    (∀ k, 4 ≤ k → k ≤ 5 → s.FailsAt k → ∃ t : State, exec i s = .next t ∧
      ∀ j < len i.group, Memory.read t.mem ((base i.group).toNat + j) = none)

/-- A write of the control registers followed by a read gives back the value written, bit for bit, in the reference
environment of D17. -/
def Obligations.ControlLoopback : Prop :=
  ∀ (s : State) (c : ControlValue), s.Ready → (∀ j < 12, s.answerAt j = .okRegs) →
    ∃ t u : State, exec (.writeControl c) s = .next t ∧ exec .readControl t = .next u ∧
      t.res = some .ok ∧ u.res = some .ok ∧ u.vout = some (.control c)

/-- Two operations on one bus are a fault: a command started while an operation of this block or of another master is
in progress, and a transition of the sequencer while another master is active. The fault is the spec's decision D18; the
places where the input is looked at are the model's (log entries 8 and 14). -/
def Obligations.InterleavingFaults : Prop :=
  (∀ (i : Instr) (s : State), s.phase = .busy ∨ s.otherMaster = true → exec i s = .fault .interleaved) ∧
  (∀ s : State, s.phase = .busy → s.otherMaster = true → step s = .fault .interleaved)

/-- No output of an operation depends on an earlier one: two ready states with the same transport answers and the same
peripheral registers give the same outcome, value, events and bus condition, whatever else they hold.
The clauses on `ptr` and `answers` are the model's (log entries 6 and 1), the bus condition is the spec's D9. -/
def Obligations.NoStateCarriedOver : Prop :=
  ∀ (i : Instr) (s₁ s₂ : State), s₁.Ready → s₂.Ready → s₁.answers = s₂.answers → s₁.draws = s₂.draws →
    s₁.mem = s₂.mem →
    ∃ (t₁ t₂ : State) (es : List Event), exec i s₁ = .next t₁ ∧ exec i s₂ = .next t₂ ∧
      t₁.trace = s₁.trace ++ es ∧ t₂.trace = s₂.trace ++ es ∧ t₁.res = t₂.res ∧ t₁.vout = t₂.vout ∧
      t₁.bus = t₂.bus ∧ t₁.mem = t₂.mem ∧ t₁.ptr = t₂.ptr ∧ t₁.answers = t₂.answers

/-! ### The sequencer (spec/42_transactions.md, spec/60_exceptions.md) -/

/-- The step relation and the whole-operation functions agree: from the accepted command the sequencer's transitions
reach, after at most 8 of them, the very state the whole operation answers, and are inside the operation until then. A
reset may land anywhere.
The agreement is the spec's inference (R158, R163); the reset is decision D10. -/
def Obligations.SequencerAgreesWithOperation : Prop :=
  ∀ (i : Instr) (s : State), s.phase = .idle → s.otherMaster = false →
    ∃ (t : State) (n : Nat), n ≤ 8 ∧ exec i s = .next t ∧ t.phase = .idle ∧
      runSteps n (acceptCommand i s) = .next t ∧
      ∀ m < n, ∃ u : State, runSteps m (acceptCommand i s) = .next u ∧ u.phase = .busy

/-- Inside an operation whose last answer was not `fail`, before the last step, the sequencer issues the next request
of its sequence, the data of a write taken from `buf`, and records it.
The `failed` flag is the model's own (log entry 5). -/
def Obligations.SequencerIssuesNextRequest : Prop :=
  ∀ (s : State) (o : Op), s.phase = .busy → s.op = some o → s.otherMaster = false → s.resetIn = none →
    s.failed = false → s.step.val < lastStep o.dir → ∀ image, Buf.bytes s.buf (len o.group) = some image ∨ o.dir = .read →
    ∃ (t : State) (req : Request) (reply : Reply), step s = .next t ∧ t.phase = .busy ∧
      (match o.dir with
        | .read => readSeq (base o.group) (len o.group)
        | .write => writeSeq (base o.group) image)[s.step.val]? = some req ∧
      t.step.val = s.step.val + 1 ∧ t.trace = s.trace ++ [⟨t.step, req, reply⟩] ∧
      (t.failed = true ↔ s.answerAt 0 = .fail) ∧ (reply = .fail ↔ s.answerAt 0 = .fail) ∧
      t.op = s.op ∧ t.res = s.res ∧ t.vout = s.vout

/-- After the last step with every answer `ok` the sequencer delivers OK, and for a read the decoded value. -/
def Obligations.SequencerDeliversOk : Prop :=
  ∀ (s : State) (o : Op) (bytes : List Byte), s.phase = .busy → s.op = some o → s.otherMaster = false →
    s.resetIn = none → s.failed = false → s.step.val = lastStep o.dir → Buf.bytes s.buf (len o.group) = some bytes →
    ∃ t : State, step s = .next t ∧ t.phase = .idle ∧ t.done = true ∧ t.res = some .ok ∧ t.trace = s.trace ∧
      t.bus = s.bus ∧ (o.dir = .read → t.vout = decodeGroup o.group bytes ∧ t.vout ≠ none) ∧
      (o.dir = .write → t.vout = none)

/-- TransactionFailure: no request follows the failing one, no stop is issued, `res` is FAIL, `vout` is absent, the
block is IDLE and `done` is delivered.
That the value is absent is the spec's decision D8. -/
def Obligations.TransactionFailureEffect : Prop :=
  ∀ (s : State) (o : Op), s.phase = .busy → s.op = some o → s.otherMaster = false → s.resetIn = none →
    s.failed = true →
    ∃ t : State, step s = .next t ∧ t.trace = s.trace ∧ t.bus = s.bus ∧ t.answers = s.answers ∧ t.res = some .fail ∧
      t.vout = none ∧ t.phase = .idle ∧ t.done = true

/-- The operation after a failed one starts from step 1, `T.begin()`, whatever the bus was left as. -/
def Obligations.NextOperationBeginsAfresh : Prop :=
  ∀ (i j : Instr) (s t : State), s.Ready → exec i s = .next t → t.res = some .fail →
    ∃ (u : State) (reply : Reply) (es : List Event), t.phase = .idle ∧ exec j t = .next u ∧
      u.trace = t.trace ++ ⟨1, .begin, reply⟩ :: es

/-- Every event of an earlier step comes before every event of a later one: no step rewrites the trace, unless a reset
lands. -/
def Obligations.TraceOnlyGrows : Prop :=
  ∀ s t : State, s.resetIn = none → step s = .next t → ∃ es, t.trace = s.trace ++ es

/-- The outcome on the host port: 0 for OK, 1 for FAIL (the spec's decision D21). -/
def Obligations.OutcomeBitOnHostPort : Prop :=
  ∀ (i : Instr) (s : State), s.Ready →
    ∃ t : State, exec i s = .next t ∧ t.hostOut.done = true ∧
      (t.hostOut.res = some 0 ↔ s.AnswersOk (lastStep i.dir)) ∧
      (t.hostOut.res = some 1 ↔ ¬ s.AnswersOk (lastStep i.dir))

/-! ### Reset (spec/70_reset_and_hazards.md) -/

/-- The reset values (the spec's decision D10; `bus` D22). -/
def Obligations.ResetValues : Prop :=
  State.reset.phase = .idle ∧ State.reset.step = 0 ∧ State.reset.op = none ∧
  State.reset.buf = #v[none, none, none, none, none, none, none] ∧ State.reset.res = none ∧
  State.reset.vout = none ∧ State.reset.trace = [] ∧ State.reset.bus = .free

/-- A reset that lands inside an operation, after `k` answered requests, abandons it: no further request, no outcome,
the block at its reset values, the bus UNKNOWN; the group's registers may hold anything only if step 4 of a write had
begun. The `k`-th answer may be a `fail` whose outcome is then never delivered (log entry 10). (The spec's decision D10,
U12.) -/
def Obligations.ResetAbandonsOperation : Prop :=
  ∀ (i : Instr) (s : State) (k : Nat) (issued : Bool), s.phase = .idle → s.otherMaster = false →
    s.resetIn = some ⟨k, issued⟩ → (s.AnswersOk k ∨ (issued = false ∧ s.FailsAt k)) →
    k + issued.toNat ≤ lastStep i.dir →
    ∃ t : State, exec i s = .next t ∧ t.phase = .idle ∧ t.step = 0 ∧ t.op = none ∧ t.buf = Buf.unwritten ∧
      t.res = none ∧ t.vout = none ∧ t.done = false ∧ t.trace = [] ∧ t.bus = .unknown ∧ t.ptr = none ∧
      t.resetIn = none ∧ t.answers = s.answers.drop k ∧
      (i.dir = .read ∨ k + issued.toNat < 4 → t.mem = s.mem) ∧
      (i.dir = .write → 4 ≤ k + issued.toNat →
        ∀ j < len i.group, Memory.read t.mem ((base i.group).toNat + j) = none)

/-- A reset that would land only after an operation has ended does not touch it: the outcome is delivered as without a
reset, and the reset is then that many requests nearer (log entry 10). -/
def Obligations.ResetLaterThanOperation : Prop :=
  ∀ (i : Instr) (s : State) (n : Nat) (issued : Bool), s.phase = .idle → s.otherMaster = false →
    s.resetIn = some ⟨n, issued⟩ →
    (s.AnswersOk (lastStep i.dir) → lastStep i.dir < n + issued.toNat →
      ∃ t : State, exec i s = .next t ∧ t.phase = .idle ∧ t.done = true ∧ t.res = some .ok ∧
        t.resetIn = some ⟨n - lastStep i.dir, issued⟩) ∧
    (∀ k ≤ lastStep i.dir, s.FailsAt k → k < n + issued.toNat →
      ∃ t : State, exec i s = .next t ∧ t.phase = .idle ∧ t.done = true ∧ t.res = some .fail ∧ t.vout = none ∧
        t.resetIn = some ⟨n - k, issued⟩)

/-- A reset of an idle block performs no bus activity: the bus condition, the peripheral and the transport are as
before, and no command is taken. (The spec's decision D10.) -/
def Obligations.IdleResetTouchesNoBus : Prop :=
  ∀ s : State, s.phase = .idle → s.resetIn = some ⟨0, false⟩ →
    ∃ t : State, step s = .next t ∧ t = { State.reset with bus := s.bus, mem := s.mem, ptr := s.ptr, cmdIn := s.cmdIn, answers := s.answers, draws := s.draws, otherMaster := s.otherMaster }

/-! ### The invariant -/

/-- The reset state meets the invariant. -/
def Obligations.ResetMeetsInvariant : Prop := State.reset.Inv

/-- Every step keeps the invariant: registers 0x00 to 0x0F only, in canonical form; only legal requests in the trace; the
bus condition as R32 says in every phase; a value delivered only by an OK read; the data an operation needs written.
The clauses on `done` and `failed` are the model's own (log entries 5 and 9). -/
def Obligations.StepKeepsInvariant : Prop := ∀ s t : State, s.Inv → step s = .next t → t.Inv

/-- No rule of the block reads an unwritten byte of `buf`, or `op` while nothing is latched. -/
def Obligations.NoUnwrittenByteRead : Prop :=
  ∀ s : State, s.Inv → step s ≠ .fault .bufUnwritten ∧ step s ≠ .fault .opUnlatched

/-! ### The assembler (spec/30_encoding.md R89) -/

/-- Fields may stand in any order, each value goes to the field of its name, a field left out is an error and no default,
and a read takes none. The syntax is the spec's decision D19; that a field the command does not have is an error is the
model's choice (log entry 12), as is the line cut into tokens. -/
def Obligations.AssemblerFieldsByName : Prop :=
  (∀ (m : Mnemonic) (i : Instr) (fs fs' : List (FieldName × Nat)), fs'.Perm fs →
    assemble ⟨m, fs⟩ = .ok i → assemble ⟨m, fs'⟩ = .ok i) ∧
  (∀ v : ClockValue, assemble ⟨.WRITE_CLOCK,
      [(.seconds, v.seconds.toNat), (.minutes, v.minutes.toNat), (.hours, v.hours.toNat), (.day, v.day.toNat),
        (.date, v.date.toNat), (.century, v.century.toNat), (.month, v.month.toNat), (.year, v.year.toNat)]⟩ =
    .ok (.writeClock v)) ∧
  (∀ a : AlarmValue,
    let fs := [(FieldName.m1, a.m1.toNat), (.seconds, a.seconds.toNat), (.m2, a.m2.toNat), (.minutes, a.minutes.toNat),
      (.m3, a.m3.toNat), (.hours, a.hours.toNat), (.m4, a.m4.toNat), (.date, a.date.toNat)]
    assemble ⟨.WRITE_ALARM1, fs⟩ = .ok (.writeAlarm1 a) ∧ assemble ⟨.WRITE_ALARM2, fs⟩ = .ok (.writeAlarm2 a)) ∧
  (∀ c : ControlValue, assemble ⟨.WRITE_CONTROL, [(.ctrl, c.ctrl.toNat), (.stat, c.stat.toNat)]⟩ =
    .ok (.writeControl c)) ∧
  (∀ x : Nat, assemble ⟨.WRITE_CONTROL, [(.ctrl, x)]⟩ = .error (.missing .stat) ∨ 256 ≤ x) ∧
  (assemble ⟨.READ_CLOCK, []⟩ = .ok .readClock ∧ assemble ⟨.READ_ALARM1, []⟩ = .ok .readAlarm1 ∧
    assemble ⟨.READ_ALARM2, []⟩ = .ok .readAlarm2 ∧ assemble ⟨.READ_CONTROL, []⟩ = .ok .readControl) ∧
  (∀ (m : Mnemonic) (i : Instr) (fs : List (FieldName × Nat)), assemble ⟨m, fs⟩ = .ok i →
    (∀ f ∈ fieldsOf m, f ∈ fs.map Prod.fst) ∧ (∀ f ∈ fs.map Prod.fst, f ∈ fieldsOf m))
end

