-- ==== Sys2Proof/Laws/Assembler.lean ====
section
/-!
SUPPORT. What the fields of a line can give: the laws later proofs about `assemble` cite.
-/

namespace Sys2Proof.Machine

/-- A field that has a value stands in the line. -/
theorem fieldValue_mem {fs : List (FieldName × Nat)} {f : FieldName} {v : Nat} (h : fieldValue fs f = .ok v) :
    f ∈ fs.map Prod.fst := by
  unfold fieldValue at h
  split at h
  · cases h
  · rename_i w hw
    have hmem : w ∈ (fs.filter fun p => decide (p.1 = f)).map Prod.snd := by rw [hw]; simp
    simp only [List.mem_map, List.mem_filter, decide_eq_true_eq] at hmem
    obtain ⟨p, ⟨hp, hf⟩, -⟩ := hmem
    exact List.mem_map.mpr ⟨p, hp, hf⟩
  · cases h

/-- The order of the fields does not matter to the value of one (R89). -/
theorem fieldValue_perm {fs fs' : List (FieldName × Nat)} {f : FieldName} {v : Nat} (hp : fs'.Perm fs)
    (h : fieldValue fs f = .ok v) : fieldValue fs' f = .ok v := by
  have hperm : ((fs'.filter fun p => decide (p.1 = f)).map Prod.snd).Perm
      ((fs.filter fun p => decide (p.1 = f)).map Prod.snd) := (hp.filter _).map _
  unfold fieldValue at h ⊢
  split at h
  · cases h
  · rename_i w hw
    rw [hw, List.perm_singleton] at hperm
    rw [hperm]
    exact h
  · cases h

theorem map_eq_ok {α β : Type} {x : Except AsmError α} {f : α → β} {b : β} (h : x.map f = .ok b) :
    ∃ a, x = .ok a ∧ f a = b := by
  cases x with
  | ok a => exact ⟨a, rfl, Except.ok.inj h⟩
  | error e => cases h

theorem bind_eq_ok {α β : Type} {x : Except AsmError α} {f : α → Except AsmError β} {b : β} (h : (x >>= f) = .ok b) :
    ∃ a, x = .ok a ∧ f a = .ok b := by
  cases x with
  | ok a => exact ⟨a, rfl, h⟩
  | error e => cases h

theorem byteField_mem {fs : List (FieldName × Nat)} {f : FieldName} {b : Byte} (h : byteField fs f = .ok b) :
    f ∈ fs.map Prod.fst := by
  obtain ⟨_, h, -⟩ := map_eq_ok h
  exact fieldValue_mem h

theorem bitField_mem {fs : List (FieldName × Nat)} {f : FieldName} {b : Bit} (h : bitField fs f = .ok b) :
    f ∈ fs.map Prod.fst := by
  obtain ⟨_, h, -⟩ := map_eq_ok h
  exact fieldValue_mem h

theorem byteField_perm {fs fs' : List (FieldName × Nat)} {f : FieldName} {b : Byte} (hp : fs'.Perm fs)
    (h : byteField fs f = .ok b) : byteField fs' f = .ok b := by
  obtain ⟨_, hv, rfl⟩ := map_eq_ok h
  rw [byteField, fieldValue_perm hp hv]
  rfl

theorem bitField_perm {fs fs' : List (FieldName × Nat)} {f : FieldName} {b : Bit} (hp : fs'.Perm fs)
    (h : bitField fs f = .ok b) : bitField fs' f = .ok b := by
  obtain ⟨_, hv, rfl⟩ := map_eq_ok h
  rw [bitField, fieldValue_perm hp hv]
  rfl

/-- A byte's own value, the only one under its field name. -/
theorem byteField_of_values {fs : List (FieldName × Nat)} {f : FieldName} {b : Byte} (hw : f.width = 8)
    (h : (fs.filter fun p => decide (p.1 = f)).map Prod.snd = [b.toNat]) : byteField fs f = .ok b := by
  have hb : b.toNat < 2 ^ 8 := b.isLt
  simp only [byteField, fieldValue, h, hw, hb, if_true, Except.map, BitVec.ofNat_toNat, BitVec.setWidth_eq]

/-- A flag's own value, the only one under its field name. -/
theorem bitField_of_values {fs : List (FieldName × Nat)} {f : FieldName} {b : Bit} (hw : f.width = 1)
    (h : (fs.filter fun p => decide (p.1 = f)).map Prod.snd = [b.toNat]) : bitField fs f = .ok b := by
  have hb : b.toNat < 2 ^ 1 := b.isLt
  simp only [bitField, fieldValue, h, hw, hb, if_true, Except.map, BitVec.ofNat_toNat, BitVec.setWidth_eq]

/-- Whether a line has a field its command does not have does not depend on the order either. -/
theorem noUnknown_perm {fs fs' : List (FieldName × Nat)} {m : Mnemonic} (hp : fs'.Perm fs)
    (h : (fs.find? fun p => decide (p.1 ∉ fieldsOf m)) = none) :
    (fs'.find? fun p => decide (p.1 ∉ fieldsOf m)) = none := by
  rw [List.find?_eq_none] at h ⊢
  exact fun p hm => h p (hp.subset hm)

end Sys2Proof.Machine
end

