-- ==== Sys2Proof/Laws/Codec.lean ====
section
/-!
SUPPORT. Byte facts of the codec's fields: a flag at bit 7 and a BCD field below it do not touch each other
(spec/41_register_codec.md R131), flags and the day field in whole numbers, and the transfer buffer as an operand.
-/

namespace Sys2Proof.Machine

/-! ### Fields of one byte -/

theorem unpackBcd_flag_or (b : Byte) (f : Bit) (tw : Nat) (h1 : 1 ≤ tw) (h2 : tw ≤ 3) :
    unpackBcd (packFlag f ||| b) tw = unpackBcd b tw := by
  interval_cases tw <;> revert f b <;> decide

theorem unpackBcd_or_flag (b : Byte) (f : Bit) (tw : Nat) (h1 : 1 ≤ tw) (h2 : tw ≤ 3) :
    unpackBcd (b ||| packFlag f) tw = unpackBcd b tw := by
  rw [BitVec.or_comm]
  exact unpackBcd_flag_or b f tw h1 h2

theorem unpackFlag_flag_or (v : Byte) (f : Bit) (tw : Nat) (h1 : 1 ≤ tw) (h2 : tw ≤ 3) :
    unpackFlag (packFlag f ||| packBcd v tw) = f := by
  interval_cases tw <;> revert f v <;> decide

theorem unpackFlag_or_flag (v : Byte) (f : Bit) (tw : Nat) (h1 : 1 ≤ tw) (h2 : tw ≤ 3) :
    unpackFlag (packBcd v tw ||| packFlag f) = f := by
  rw [BitVec.or_comm]
  exact unpackFlag_flag_or v f tw h1 h2

theorem unpackFlag_toNat (b : Byte) : (unpackFlag b).toNat = b.toNat / 128 := by revert b; decide

theorem unpackDay_toNat (b : Byte) : (unpackPlain b 0 3).toNat = b.toNat % 8 := by revert b; decide

theorem packDay_toNat (b : Byte) : (packPlain b 0 3).toNat = b.toNat % 8 := by revert b; decide

theorem flag_or_bcd_toNat (b : Byte) (f : Bit) (tw : Nat) (h1 : 1 ≤ tw) (h2 : tw ≤ 3) :
    (packFlag f ||| packBcd b tw).toNat = 128 * f.toNat + (packBcd b tw).toNat := by
  interval_cases tw <;> revert f b <;> decide

/-! ### The transfer buffer -/

theorem allPresent_length {α : Type} (xs : List (Option α)) (ys : List α) (h : allPresent xs = some ys) :
    ys.length = xs.length := by
  induction xs generalizing ys with
  | nil =>
    simp only [allPresent, Option.some.injEq] at h
    simp [← h]
  | cons x xs ih =>
    cases x with
    | none => simp [allPresent] at h
    | some x =>
      simp only [allPresent, Option.map_eq_some_iff] at h
      obtain ⟨zs, hz, rfl⟩ := h
      simp [ih zs hz]

theorem len_le_seven (g : Group) : len g ≤ 7 := by cases g <;> simp [len]

theorem base_add_len_le (g : Group) : (base g).toNat + len g ≤ 16 := by cases g <;> decide

theorem Buf.bytes_length (b : Buf) (n : Nat) (bs : List Byte) (hn : n ≤ 7) (h : Buf.bytes b n = some bs) :
    bs.length = n := by
  rw [allPresent_length _ _ h]
  simpa using hn

/-- Bytes laid into the buffer are read back from it. -/
theorem Buf.bytes_ofBytes (bs : List Byte) (h : bs.length ≤ 7) : Buf.bytes (Buf.ofBytes bs) bs.length = some bs := by
  match bs, h with
  | [], _ => rfl
  | [_], _ => rfl
  | [_, _], _ => rfl
  | [_, _, _], _ => rfl
  | [_, _, _, _], _ => rfl
  | [_, _, _, _, _], _ => rfl
  | [_, _, _, _, _, _], _ => rfl
  | [_, _, _, _, _, _, _], _ => rfl

/-- The group's decoder answers every image of the group's length: the codec cannot fail (R108). -/
theorem decodeGroup_isSome (g : Group) (bs : List Byte) (h : bs.length = len g) : ∃ v, decodeGroup g bs = some v := by
  cases g <;> simp only [len] at h <;> exact ⟨_, by simp [decodeGroup, toImage, h]; rfl⟩

theorem imageOf_length (i : Instr) (h : i.dir = .write) : (imageOf i).length = len i.group := by
  cases i <;> first | rfl | cases h

end Sys2Proof.Machine
end

