-- ==== Sys2Proof/Laws/PerInstr.lean ====
section
/-!
SUPPORT. Facts about every command as syntax, one lemma per constructor.

`PayloadLength`: a command's serialisation is its word and as many payload bytes as the word alone announces
(spec/30_encoding.md R88).
-/

namespace Sys2Proof.Laws.PayloadLength

/-- The serialisation's length is known from group and direction alone (R88). -/
def Statement (i : Instr) : Prop := (encode i).length = 1 + payloadBytes i.group i.dir

theorem writeClock (v : ClockValue) : Statement (.writeClock v) := rfl
theorem readClock : Statement .readClock := rfl
theorem writeAlarm1 (a : AlarmValue) : Statement (.writeAlarm1 a) := rfl
theorem readAlarm1 : Statement .readAlarm1 := rfl
theorem writeAlarm2 (a : AlarmValue) : Statement (.writeAlarm2 a) := rfl
theorem readAlarm2 : Statement .readAlarm2 := rfl
theorem writeControl (c : ControlValue) : Statement (.writeControl c) := rfl
theorem readControl : Statement .readControl := rfl

end Sys2Proof.Laws.PayloadLength
end

