-- ==== Sys2Proof/Laws/State.lean ====
section
/-!
SUPPORT. One lemma per field and named update of the state, so that no proof unfolds a record update.
-/

namespace Sys2Proof.Machine

/-! ### accept -/

@[simp] theorem accept_phase (o : Op) (image : List Byte) (s : State) : (accept o image s).phase = .busy := rfl
@[simp] theorem accept_step (o : Op) (image : List Byte) (s : State) : (accept o image s).step = 0 := rfl
@[simp] theorem accept_failed (o : Op) (image : List Byte) (s : State) : (accept o image s).failed = false := rfl
@[simp] theorem accept_op (o : Op) (image : List Byte) (s : State) : (accept o image s).op = some o := rfl
@[simp] theorem accept_buf (o : Op) (image : List Byte) (s : State) : (accept o image s).buf = Buf.ofBytes image := rfl
@[simp] theorem accept_res (o : Op) (image : List Byte) (s : State) : (accept o image s).res = none := rfl
@[simp] theorem accept_vout (o : Op) (image : List Byte) (s : State) : (accept o image s).vout = none := rfl
@[simp] theorem accept_done (o : Op) (image : List Byte) (s : State) : (accept o image s).done = false := rfl
@[simp] theorem accept_trace (o : Op) (image : List Byte) (s : State) : (accept o image s).trace = s.trace := rfl
@[simp] theorem accept_bus (o : Op) (image : List Byte) (s : State) : (accept o image s).bus = s.bus := rfl
@[simp] theorem accept_mem (o : Op) (image : List Byte) (s : State) : (accept o image s).mem = s.mem := rfl
@[simp] theorem accept_ptr (o : Op) (image : List Byte) (s : State) : (accept o image s).ptr = s.ptr := rfl
@[simp] theorem accept_cmdIn (o : Op) (image : List Byte) (s : State) : (accept o image s).cmdIn = s.cmdIn := rfl
@[simp] theorem accept_answers (o : Op) (image : List Byte) (s : State) : (accept o image s).answers = s.answers := rfl
@[simp] theorem accept_draws (o : Op) (image : List Byte) (s : State) : (accept o image s).draws = s.draws := rfl
@[simp] theorem accept_otherMaster (o : Op) (image : List Byte) (s : State) : (accept o image s).otherMaster = s.otherMaster := rfl
@[simp] theorem accept_resetIn (o : Op) (image : List Byte) (s : State) : (accept o image s).resetIn = s.resetIn := rfl

/-! ### issue -/

@[simp] theorem issue_phase (req : Request) (s : State) : (issue req s).phase = s.phase := rfl
@[simp] theorem issue_step (req : Request) (s : State) : (issue req s).step = s.step + 1 := rfl
@[simp] theorem issue_failed (req : Request) (s : State) : (issue req s).failed = (replyTo req s).isFail := rfl
@[simp] theorem issue_op (req : Request) (s : State) : (issue req s).op = s.op := rfl
@[simp] theorem issue_buf (req : Request) (s : State) : (issue req s).buf = bufAfter req (replyTo req s) s.buf := rfl
@[simp] theorem issue_res (req : Request) (s : State) : (issue req s).res = s.res := rfl
@[simp] theorem issue_vout (req : Request) (s : State) : (issue req s).vout = s.vout := rfl
@[simp] theorem issue_done (req : Request) (s : State) : (issue req s).done = s.done := rfl
@[simp] theorem issue_trace (req : Request) (s : State) : (issue req s).trace = s.trace ++ [{ k := s.step + 1, req := req, reply := replyTo req s }] := rfl
@[simp] theorem issue_bus (req : Request) (s : State) : (issue req s).bus = busAfter req (replyTo req s) s.bus := rfl
@[simp] theorem issue_mem (req : Request) (s : State) : (issue req s).mem = memAfter req (replyTo req s) s.ptr s.mem := rfl
@[simp] theorem issue_ptr (req : Request) (s : State) : (issue req s).ptr = ptrAfter req (replyTo req s) s.ptr := rfl
@[simp] theorem issue_cmdIn (req : Request) (s : State) : (issue req s).cmdIn = s.cmdIn := rfl
@[simp] theorem issue_answers (req : Request) (s : State) : (issue req s).answers = s.answers.tail := rfl
@[simp] theorem issue_draws (req : Request) (s : State) : (issue req s).draws = s.draws + 1 := rfl
@[simp] theorem issue_otherMaster (req : Request) (s : State) : (issue req s).otherMaster = s.otherMaster := rfl
@[simp] theorem issue_resetIn (req : Request) (s : State) : (issue req s).resetIn = s.resetIn.map ResetAt.nearer := rfl

/-! ### issueUnanswered -/

@[simp] theorem issueUnanswered_phase (s : State) : (issueUnanswered s).phase = s.phase := rfl
@[simp] theorem issueUnanswered_step (s : State) : (issueUnanswered s).step = s.step + 1 := rfl
@[simp] theorem issueUnanswered_failed (s : State) : (issueUnanswered s).failed = s.failed := rfl
@[simp] theorem issueUnanswered_op (s : State) : (issueUnanswered s).op = s.op := rfl
@[simp] theorem issueUnanswered_buf (s : State) : (issueUnanswered s).buf = s.buf := rfl
@[simp] theorem issueUnanswered_res (s : State) : (issueUnanswered s).res = s.res := rfl
@[simp] theorem issueUnanswered_vout (s : State) : (issueUnanswered s).vout = s.vout := rfl
@[simp] theorem issueUnanswered_done (s : State) : (issueUnanswered s).done = s.done := rfl
@[simp] theorem issueUnanswered_trace (s : State) : (issueUnanswered s).trace = s.trace := rfl
@[simp] theorem issueUnanswered_bus (s : State) : (issueUnanswered s).bus = s.bus := rfl
@[simp] theorem issueUnanswered_mem (s : State) : (issueUnanswered s).mem = s.mem := rfl
@[simp] theorem issueUnanswered_ptr (s : State) : (issueUnanswered s).ptr = s.ptr := rfl
@[simp] theorem issueUnanswered_cmdIn (s : State) : (issueUnanswered s).cmdIn = s.cmdIn := rfl
@[simp] theorem issueUnanswered_answers (s : State) : (issueUnanswered s).answers = s.answers := rfl
@[simp] theorem issueUnanswered_draws (s : State) : (issueUnanswered s).draws = s.draws := rfl
@[simp] theorem issueUnanswered_otherMaster (s : State) : (issueUnanswered s).otherMaster = s.otherMaster := rfl
@[simp] theorem issueUnanswered_resetIn (s : State) : (issueUnanswered s).resetIn = s.resetIn := rfl

/-! ### transactionFailure -/

@[simp] theorem transactionFailure_phase (s : State) : (transactionFailure s).phase = .idle := rfl
@[simp] theorem transactionFailure_step (s : State) : (transactionFailure s).step = s.step := rfl
@[simp] theorem transactionFailure_failed (s : State) : (transactionFailure s).failed = false := rfl
@[simp] theorem transactionFailure_op (s : State) : (transactionFailure s).op = s.op := rfl
@[simp] theorem transactionFailure_buf (s : State) : (transactionFailure s).buf = bufAfterFailure s := rfl
@[simp] theorem transactionFailure_res (s : State) : (transactionFailure s).res = some .fail := rfl
@[simp] theorem transactionFailure_vout (s : State) : (transactionFailure s).vout = none := rfl
@[simp] theorem transactionFailure_done (s : State) : (transactionFailure s).done = true := rfl
@[simp] theorem transactionFailure_trace (s : State) : (transactionFailure s).trace = s.trace := rfl
@[simp] theorem transactionFailure_bus (s : State) : (transactionFailure s).bus = s.bus := rfl
@[simp] theorem transactionFailure_mem (s : State) : (transactionFailure s).mem = forgetIfSent s := rfl
@[simp] theorem transactionFailure_ptr (s : State) : (transactionFailure s).ptr = s.ptr := rfl
@[simp] theorem transactionFailure_cmdIn (s : State) : (transactionFailure s).cmdIn = s.cmdIn := rfl
@[simp] theorem transactionFailure_answers (s : State) : (transactionFailure s).answers = s.answers := rfl
@[simp] theorem transactionFailure_draws (s : State) : (transactionFailure s).draws = s.draws := rfl
@[simp] theorem transactionFailure_otherMaster (s : State) : (transactionFailure s).otherMaster = s.otherMaster := rfl
@[simp] theorem transactionFailure_resetIn (s : State) : (transactionFailure s).resetIn = s.resetIn := rfl

/-! ### completeOk -/

@[simp] theorem completeOk_phase (v : Option HostValue) (s : State) : (completeOk v s).phase = .idle := rfl
@[simp] theorem completeOk_step (v : Option HostValue) (s : State) : (completeOk v s).step = s.step := rfl
@[simp] theorem completeOk_failed (v : Option HostValue) (s : State) : (completeOk v s).failed = false := rfl
@[simp] theorem completeOk_op (v : Option HostValue) (s : State) : (completeOk v s).op = s.op := rfl
@[simp] theorem completeOk_buf (v : Option HostValue) (s : State) : (completeOk v s).buf = s.buf := rfl
@[simp] theorem completeOk_res (v : Option HostValue) (s : State) : (completeOk v s).res = some .ok := rfl
@[simp] theorem completeOk_vout (v : Option HostValue) (s : State) : (completeOk v s).vout = v := rfl
@[simp] theorem completeOk_done (v : Option HostValue) (s : State) : (completeOk v s).done = true := rfl
@[simp] theorem completeOk_trace (v : Option HostValue) (s : State) : (completeOk v s).trace = s.trace := rfl
@[simp] theorem completeOk_bus (v : Option HostValue) (s : State) : (completeOk v s).bus = s.bus := rfl
@[simp] theorem completeOk_mem (v : Option HostValue) (s : State) : (completeOk v s).mem = s.mem := rfl
@[simp] theorem completeOk_ptr (v : Option HostValue) (s : State) : (completeOk v s).ptr = s.ptr := rfl
@[simp] theorem completeOk_cmdIn (v : Option HostValue) (s : State) : (completeOk v s).cmdIn = s.cmdIn := rfl
@[simp] theorem completeOk_answers (v : Option HostValue) (s : State) : (completeOk v s).answers = s.answers := rfl
@[simp] theorem completeOk_draws (v : Option HostValue) (s : State) : (completeOk v s).draws = s.draws := rfl
@[simp] theorem completeOk_otherMaster (v : Option HostValue) (s : State) : (completeOk v s).otherMaster = s.otherMaster := rfl
@[simp] theorem completeOk_resetIn (v : Option HostValue) (s : State) : (completeOk v s).resetIn = s.resetIn := rfl

/-! ### resetBlock -/

@[simp] theorem resetBlock_phase (s : State) : (resetBlock s).phase = .idle := rfl
@[simp] theorem resetBlock_step (s : State) : (resetBlock s).step = 0 := rfl
@[simp] theorem resetBlock_failed (s : State) : (resetBlock s).failed = false := rfl
@[simp] theorem resetBlock_op (s : State) : (resetBlock s).op = none := rfl
@[simp] theorem resetBlock_buf (s : State) : (resetBlock s).buf = Buf.unwritten := rfl
@[simp] theorem resetBlock_res (s : State) : (resetBlock s).res = none := rfl
@[simp] theorem resetBlock_vout (s : State) : (resetBlock s).vout = none := rfl
@[simp] theorem resetBlock_done (s : State) : (resetBlock s).done = false := rfl
@[simp] theorem resetBlock_trace (s : State) : (resetBlock s).trace = [] := rfl
@[simp] theorem resetBlock_bus (s : State) : (resetBlock s).bus = (match s.phase with | .busy => .unknown | .idle => s.bus) := rfl
@[simp] theorem resetBlock_mem (s : State) : (resetBlock s).mem = (match s.phase with | .busy => forgetIfSent s | .idle => s.mem) := rfl
@[simp] theorem resetBlock_ptr (s : State) : (resetBlock s).ptr = (match s.phase with | .busy => none | .idle => s.ptr) := rfl
@[simp] theorem resetBlock_cmdIn (s : State) : (resetBlock s).cmdIn = s.cmdIn := rfl
@[simp] theorem resetBlock_answers (s : State) : (resetBlock s).answers = s.answers := rfl
@[simp] theorem resetBlock_draws (s : State) : (resetBlock s).draws = s.draws := rfl
@[simp] theorem resetBlock_otherMaster (s : State) : (resetBlock s).otherMaster = s.otherMaster := rfl
@[simp] theorem resetBlock_resetIn (s : State) : (resetBlock s).resetIn = none := rfl

/-! ### presentWord -/

@[simp] theorem presentWord_phase (s : State) (nbits w : Nat) : (presentWord s nbits w).phase = .idle := rfl
@[simp] theorem presentWord_step (s : State) (nbits w : Nat) : (presentWord s nbits w).step = s.step := rfl
@[simp] theorem presentWord_failed (s : State) (nbits w : Nat) : (presentWord s nbits w).failed = s.failed := rfl
@[simp] theorem presentWord_op (s : State) (nbits w : Nat) : (presentWord s nbits w).op = s.op := rfl
@[simp] theorem presentWord_buf (s : State) (nbits w : Nat) : (presentWord s nbits w).buf = s.buf := rfl
@[simp] theorem presentWord_res (s : State) (nbits w : Nat) : (presentWord s nbits w).res = s.res := rfl
@[simp] theorem presentWord_vout (s : State) (nbits w : Nat) : (presentWord s nbits w).vout = s.vout := rfl
@[simp] theorem presentWord_done (s : State) (nbits w : Nat) : (presentWord s nbits w).done = s.done := rfl
@[simp] theorem presentWord_trace (s : State) (nbits w : Nat) : (presentWord s nbits w).trace = s.trace := rfl
@[simp] theorem presentWord_bus (s : State) (nbits w : Nat) : (presentWord s nbits w).bus = s.bus := rfl
@[simp] theorem presentWord_mem (s : State) (nbits w : Nat) : (presentWord s nbits w).mem = s.mem := rfl
@[simp] theorem presentWord_ptr (s : State) (nbits w : Nat) : (presentWord s nbits w).ptr = s.ptr := rfl
@[simp] theorem presentWord_cmdIn (s : State) (nbits w : Nat) : (presentWord s nbits w).cmdIn = tableBytes nbits w := rfl
@[simp] theorem presentWord_answers (s : State) (nbits w : Nat) : (presentWord s nbits w).answers = s.answers := rfl
@[simp] theorem presentWord_draws (s : State) (nbits w : Nat) : (presentWord s nbits w).draws = s.draws := rfl
@[simp] theorem presentWord_otherMaster (s : State) (nbits w : Nat) : (presentWord s nbits w).otherMaster = s.otherMaster := rfl
@[simp] theorem presentWord_resetIn (s : State) (nbits w : Nat) : (presentWord s nbits w).resetIn = (match s.resetNow with | true => none | false => s.resetIn) := rfl

end Sys2Proof.Machine
end

