-- ==== Sys2Proof/Laws/Run.lean ====
section
/-!
SUPPORT. What one request, a whole sequence and a whole operation can do, said once: the lemmas later proofs cite
instead of unfolding `runSeq`.
-/

namespace Sys2Proof.Machine

/-! ### The answers, request by request -/

theorem answerAt_issue (req : Request) (s : State) (j : Nat) : (issue req s).answerAt j = s.answerAt (j + 1) := by
  simp only [State.answerAt, issue_answers, issue_draws, List.getElem?_tail, Nat.add_assoc, Nat.add_comm 1 j]

theorem answerAt_accept (o : Op) (image : List Byte) (s : State) (j : Nat) :
    (accept o image s).answerAt j = s.answerAt j := rfl

theorem replyTo_fail {req : Request} {s : State} (h : s.answerAt 0 = .fail) : replyTo req s = .fail := by
  simp [replyTo, h]

/-- A request answered `ok`: the block sees `ok`, for a receive with the received bytes. -/
theorem replyTo_ok {req : Request} {s : State} (h : s.answerAt 0 ≠ .fail) :
    replyTo req s = .ok (match req with
      | .rx n => received (s.answerAt 0) s.mem s.ptr s.draws n
      | _ => []) := by
  unfold replyTo
  cases e : s.answerAt 0 with
  | fail => exact absurd e h
  | ok bs => cases req <;> rfl
  | okRegs => cases req <;> rfl

theorem issue_failed_iff (req : Request) (s : State) : (issue req s).failed = true ↔ s.answerAt 0 = .fail := by
  rw [issue_failed]
  by_cases h : s.answerAt 0 = .fail
  · simp [replyTo_fail h, h, Reply.isFail]
  · simp [replyTo_ok h, h, Reply.isFail]

theorem received_length (a : Answer) (mem : Memory) (ptr : Option Byte) (draw n : Nat) :
    (received a mem ptr draw n).length = n := by
  simp [received]

theorem State.resetNow_of_none {s : State} (h : s.resetIn = none) : s.resetNow = false := by simp [State.resetNow, h]

theorem State.resetOutstanding_of_none {s : State} (h : s.resetIn = none) : s.resetOutstanding = false := by
  simp [State.resetOutstanding, h]

theorem issue_resetIn_none {req : Request} {s : State} (h : s.resetIn = none) : (issue req s).resetIn = none := by
  simp [h]

/-! ### Sequences -/

/-- A request that is no receive, answered `ok`. -/
theorem replyTo_ok_plain {req : Request} {s : State} (h : s.answerAt 0 ≠ .fail) (hr : ∀ n, req ≠ .rx n) :
    replyTo req s = .ok [] := by
  rw [replyTo_ok h]
  cases req <;> first | rfl | exact absurd rfl (hr _)

/-- The step index counts up without wrapping (R24). -/
theorem step_succ (a : Fin 8) (h : a.val + 1 ≤ 7) : (a + 1).val = a.val + 1 := by
  rw [Fin.val_add]
  simp
  omega

/-- Only a transmit of data changes the peripheral's registers. -/
theorem issue_mem_plain {req : Request} {s : State} (h : ∀ bs, req ≠ .txn bs) : (issue req s).mem = s.mem := by
  rw [issue_mem]
  cases req <;> first | rfl | exact absurd rfl (h _)

/-- Only a receive changes the buffer. -/
theorem issue_buf_plain {req : Request} {s : State} (h : ∀ n, req ≠ .rx n) : (issue req s).buf = s.buf := by
  rw [issue_buf]
  cases req <;> first | rfl | exact absurd rfl (h _)

theorem issue_not_failed {req : Request} {s : State} (h : (issue req s).failed = false) : s.answerAt 0 ≠ .fail := by
  intro e
  rw [(issue_failed_iff req s).mpr e] at h
  cases h

/-- The pointer byte sets the peripheral's register pointer (R49). -/
theorem issue_tx_ptr {b : Byte} {s : State} (h : (issue (.tx b) s).failed = false) :
    (issue (.tx b) s).ptr = some b := by
  rw [issue_ptr, replyTo_ok_plain (issue_not_failed h) (by simp)]
  rfl

/-- The requests of a list issued one after the other, whatever the answers. -/
def issueAll (reqs : List Request) (s : State) : State := reqs.foldl (fun s req => issue req s) s

@[simp] theorem issueAll_nil (s : State) : issueAll [] s = s := rfl

@[simp] theorem issueAll_cons (req : Request) (reqs : List Request) (s : State) :
    issueAll (req :: reqs) s = issueAll reqs (issue req s) := rfl

/-- Every request answered `ok`: the sequence is done (R153). -/
theorem runSeq_done (reqs : List Request) (s : State) (hr : s.resetIn = none) (h : s.AnswersOk reqs.length) :
    runSeq reqs s = (.done, issueAll reqs s) := by
  induction reqs generalizing s with
  | nil => simp [runSeq, State.resetNow_of_none hr]
  | cons req reqs ih =>
    have hf : ¬ (issue req s).failed = true := by
      rw [issue_failed_iff]
      exact h 0 (by simp)
    have hok : (issue req s).AnswersOk reqs.length := by
      intro j hj
      rw [answerAt_issue]
      exact h (j + 1) (by simpa using hj)
    simp only [runSeq, State.resetNow_of_none hr, State.resetOutstanding_of_none hr, hf, issueAll_cons]
    simpa using ih (issue req s) (issue_resetIn_none hr) hok

/-- The first `fail` at step `k + 1` ends the sequence there: no later request is issued (R153). -/
theorem runSeq_failed (reqs : List Request) (s : State) (k : Nat) (hr : s.resetIn = none) (hk : k < reqs.length)
    (hok : s.AnswersOk k) (hfail : s.answerAt k = .fail) :
    runSeq reqs s = (.failed, issueAll (reqs.take (k + 1)) s) := by
  induction reqs generalizing s k with
  | nil => simp at hk
  | cons req reqs ih =>
    have hr' := issue_resetIn_none (req := req) hr
    cases k with
    | zero =>
      have hf : (issue req s).failed = true := (issue_failed_iff req s).mpr hfail
      simp only [runSeq, State.resetNow_of_none hr, State.resetOutstanding_of_none hr, State.resetNow_of_none hr', hf]
      rfl
    | succ k =>
      have hf : ¬ (issue req s).failed = true := by
        rw [issue_failed_iff]
        exact hok 0 (by omega)
      have := ih (issue req s) k hr' (by simpa using hk)
        (fun j hj => by rw [answerAt_issue]; exact hok (j + 1) (by omega)) (by rw [answerAt_issue]; exact hfail)
      simp only [runSeq, State.resetNow_of_none hr, State.resetOutstanding_of_none hr, hf, List.take_succ_cons,
        issueAll_cons]
      simpa using this

/-- Either the next `n` answers are all `ok`, or there is a first `fail` among them. -/
theorem answersOk_or_failsAt (s : State) (n : Nat) : s.AnswersOk n ∨ ∃ k ≤ n, s.FailsAt k := by
  induction n with
  | zero => exact .inl fun j hj => absurd hj (Nat.not_lt_zero j)
  | succ n ih =>
    rcases ih with h | ⟨k, hk, h⟩
    · by_cases e : s.answerAt n = .fail
      · exact .inr ⟨n + 1, Nat.le_refl _, by omega, by simpa using h, by simpa using e⟩
      · refine .inl fun j hj => ?_
        rcases Nat.lt_succ_iff_lt_or_eq.mp hj with hj | rfl
        · exact h j hj
        · exact e
    · exact .inr ⟨k, by omega, h⟩

/-- What holds of a state and is kept by every request holds at the end of a sequence. -/
theorem runSeq_keeps (P : State → Prop) (hissue : ∀ req s, P s → P (issue req s))
    (hun : ∀ s, P s → P (issueUnanswered s)) (reqs : List Request) (s : State) (h : P s) : P (runSeq reqs s).2 := by
  induction reqs generalizing s with
  | nil => unfold runSeq; split <;> exact h
  | cons req reqs ih =>
    unfold runSeq
    split
    · exact h
    · split
      · exact hun s h
      · split
        · split <;> exact hissue req s h
        · exact ih _ (hissue req s h)

theorem issueAll_resetIn (reqs : List Request) (s : State) (h : s.resetIn = none) : (issueAll reqs s).resetIn = none := by
  induction reqs generalizing s with
  | nil => exact h
  | cons req reqs ih => exact ih _ (issue_resetIn_none h)

/-- Each request of a sequence leaves one event in the trace, in order (R159). -/
theorem issueAll_trace (reqs : List Request) (s : State) :
    ∃ es, (issueAll reqs s).trace = s.trace ++ es ∧ es.map Event.req = reqs := by
  induction reqs generalizing s with
  | nil => exact ⟨[], by simp, rfl⟩
  | cons req reqs ih =>
    obtain ⟨es, h1, h2⟩ := ih (issue req s)
    exact ⟨⟨s.step + 1, req, replyTo req s⟩ :: es, by simp [h1], by simp [h2]⟩

theorem issueAll_draws (reqs : List Request) (s : State) : (issueAll reqs s).draws = s.draws + reqs.length := by
  induction reqs generalizing s with
  | nil => rfl
  | cons req reqs ih => rw [issueAll_cons, ih, issue_draws, List.length_cons]; omega

theorem issueAll_answers (reqs : List Request) (s : State) : (issueAll reqs s).answers = s.answers.drop reqs.length := by
  induction reqs generalizing s with
  | nil => rfl
  | cons req reqs ih => rw [issueAll_cons, ih, issue_answers, List.drop_tail, List.length_cons]

theorem issueAll_op (reqs : List Request) (s : State) : (issueAll reqs s).op = s.op := by
  induction reqs generalizing s with
  | nil => rfl
  | cons req reqs ih => rw [issueAll_cons, ih, issue_op]

theorem issueAll_append (as bs : List Request) (s : State) : issueAll (as ++ bs) s = issueAll bs (issueAll as s) := by
  simp [issueAll]

/-- The events a list of requests leaves: one each, in order, numbered from the step index on, `fail` exactly where the
transport answers so. -/
theorem issueAll_events (reqs : List Request) (s : State) (h : s.step.val + reqs.length ≤ 7) :
    (issueAll reqs s).step.val = s.step.val + reqs.length ∧
    ∃ es, (issueAll reqs s).trace = s.trace ++ es ∧ es.length = reqs.length ∧ es.map Event.req = reqs ∧
      (es.map fun e => e.k.val) = List.range' (s.step.val + 1) reqs.length ∧
      ∀ j (h : j < es.length), es[j].reply = .fail ↔ s.answerAt j = .fail := by
  induction reqs generalizing s with
  | nil => exact ⟨rfl, [], by simp, rfl, rfl, rfl, fun j h => absurd h (by simp)⟩
  | cons req reqs ih =>
    simp only [List.length_cons] at h
    have hs := step_succ s.step (by omega)
    obtain ⟨h1, es, h2, h3, h4, h5, h6⟩ := ih (issue req s) (by rw [issue_step, hs]; omega)
    rw [issue_step, hs] at h1 h5
    refine ⟨by rw [issueAll_cons, h1, List.length_cons]; omega, ⟨s.step + 1, req, replyTo req s⟩ :: es, by simp [h2],
      by simp [h3], by simp [h4], by simp [h5, hs, List.range'_succ], ?_⟩
    intro j hj
    cases j with
    | zero =>
      by_cases e : s.answerAt 0 = .fail
      · simp [replyTo_fail e, e]
      · simp [replyTo_ok e, e]
    | succ j =>
      rw [List.getElem_cons_succ, h6 j (by simpa using hj), answerAt_issue]

/-- After a failing last request the bus is UNKNOWN and the register pointer may be anything (R32, U16). -/
theorem issueAll_take_fail (reqs : List Request) (s : State) (k : Nat) (h1 : 1 ≤ k) (hk : k ≤ reqs.length)
    (hf : s.answerAt (k - 1) = .fail) :
    (issueAll (reqs.take k) s).bus = .unknown ∧ (issueAll (reqs.take k) s).ptr = none := by
  induction reqs generalizing s k with
  | nil =>
    simp only [List.length_nil] at hk
    omega
  | cons r rs ih =>
    obtain ⟨k, rfl⟩ : ∃ k', k = k' + 1 := ⟨k - 1, by omega⟩
    simp only [Nat.add_sub_cancel] at hf
    simp only [List.take_succ_cons, issueAll_cons]
    cases k with
    | zero => simp [busAfter, ptrAfter, replyTo_fail hf]
    | succ k => exact ih _ (k + 1) (by omega) (by simpa using hk) (by rw [answerAt_issue]; exact hf)

/-- Where a sequence can end: after its first `j` requests, or with one more issued and unanswered; no request before
the `j`-th failed. -/
theorem runSeq_reach (reqs : List Request) (s : State) : ∃ j ≤ reqs.length,
    ((runSeq reqs s).2 = issueAll (reqs.take j) s ∨ (runSeq reqs s).2 = issueUnanswered (issueAll (reqs.take j) s)) ∧
    ∀ j', 1 ≤ j' → j' < j → (issueAll (reqs.take j') s).failed = false := by
  induction reqs generalizing s with
  | nil => exact ⟨0, Nat.le_refl _, by unfold runSeq; split <;> simp, fun j h1 h2 => by omega⟩
  | cons r rs ih =>
    unfold runSeq
    split
    · exact ⟨0, by simp, by simp, fun j h1 h2 => by omega⟩
    · split
      · exact ⟨0, by simp, by simp, fun j h1 h2 => by omega⟩
      · split
        · exact ⟨1, by simp, by split <;> simp, fun j h1 h2 => by omega⟩
        · rename_i hf
          obtain ⟨j, hj, h1, h2⟩ := ih (issue r s)
          refine ⟨j + 1, by simpa using hj, by simpa using h1, fun j' h3 h4 => ?_⟩
          obtain ⟨j', rfl⟩ : ∃ q, j' = q + 1 := ⟨j' - 1, by omega⟩
          cases j' with
          | zero => simpa using hf
          | succ q => exact h2 (q + 1) (by omega) (by omega)

/-- What no request changes (R153, R190). -/
theorem runSeq_frame (reqs : List Request) (s : State) :
    (runSeq reqs s).2.phase = s.phase ∧ (runSeq reqs s).2.op = s.op ∧ (runSeq reqs s).2.cmdIn = s.cmdIn ∧
      (runSeq reqs s).2.otherMaster = s.otherMaster ∧ (s.resetIn = none → (runSeq reqs s).2.resetIn = none) := by
  apply runSeq_keeps fun u => u.phase = s.phase ∧ u.op = s.op ∧ u.cmdIn = s.cmdIn ∧ u.otherMaster = s.otherMaster ∧
    (s.resetIn = none → u.resetIn = none)
  · rintro r u ⟨h1, h2, h3, h4, h5⟩
    exact ⟨h1, h2, h3, h4, fun h => issue_resetIn_none (h5 h)⟩
  · exact fun u h => h
  · exact ⟨rfl, rfl, rfl, rfl, id⟩

/-- Without a reset on its way no sequence is abandoned. -/
theorem runSeq_not_abandoned (reqs : List Request) (s : State) (h : s.resetIn = none) :
    (runSeq reqs s).1 ≠ .abandoned := by
  induction reqs generalizing s with
  | nil => simp [runSeq, State.resetNow_of_none h]
  | cons r rs ih =>
    have h' := issue_resetIn_none (req := r) h
    simp only [runSeq, State.resetNow_of_none h, State.resetOutstanding_of_none h, State.resetNow_of_none h']
    cases hf : (issue r s).failed with
    | true => simp
    | false => simpa using ih _ h'

/-- A reset that lands after `k` answered requests, all `ok`, abandons the sequence there (R231). -/
theorem runSeq_abandoned (reqs : List Request) (s : State) (k : Nat) (b : Bool) (hr : s.resetIn = some ⟨k, b⟩)
    (hok : s.AnswersOk k) (hk : k + b.toNat ≤ reqs.length) :
    runSeq reqs s = (.abandoned,
      if b then issueUnanswered (issueAll (reqs.take k) s) else issueAll (reqs.take k) s) := by
  induction k generalizing reqs s with
  | zero =>
    cases b with
    | false =>
      have : s.resetNow = true := by simp [State.resetNow, hr]
      cases reqs <;> simp [runSeq, this]
    | true =>
      have h1 : s.resetNow = false := by simp [State.resetNow, hr]
      have h2 : s.resetOutstanding = true := by simp [State.resetOutstanding, hr]
      cases reqs with
      | nil => simp at hk
      | cons r rs => simp [runSeq, h1, h2]
  | succ k ih =>
    have h1 : s.resetNow = false := by simp [State.resetNow, hr]
    have h2 : s.resetOutstanding = false := by simp [State.resetOutstanding, hr]
    cases reqs with
    | nil =>
      simp only [List.length_nil] at hk
      omega
    | cons r rs =>
      have hf : (issue r s).failed = false := by
        cases h : (issue r s).failed with
        | false => rfl
        | true => exact absurd ((issue_failed_iff r s).mp h) (hok 0 (by omega))
      have := ih rs (issue r s) (by simp [hr, ResetAt.nearer])
        (fun j hj => by rw [answerAt_issue]; exact hok (j + 1) (by omega))
        (by simp only [List.length_cons] at hk; omega)
      simp only [runSeq, h1, h2, hf, List.take_succ_cons, issueAll_cons]
      simpa using this

/-- An `ok` first request: the sequence goes on with the rest (R153). -/
theorem runSeq_cons_ok {req : Request} {reqs : List Request} {s : State} (h1 : s.resetNow = false)
    (h2 : s.resetOutstanding = false) (h : s.answerAt 0 ≠ .fail) :
    runSeq (req :: reqs) s = runSeq reqs (issue req s) := by
  have hf : ¬ (issue req s).failed = true := by rwa [issue_failed_iff]
  rw [runSeq, if_neg (by simp [h1]), if_neg (by simp [h2]), if_neg hf]

/-- A failing first request: the sequence ends there, unless a reset lands with the answer (R153, R231). -/
theorem runSeq_cons_fail {req : Request} {reqs : List Request} {s : State} (h1 : s.resetNow = false)
    (h2 : s.resetOutstanding = false) (h : s.answerAt 0 = .fail) :
    runSeq (req :: reqs) s = (if (issue req s).resetNow then .abandoned else .failed, issue req s) := by
  have hf : (issue req s).failed = true := by rwa [issue_failed_iff]
  rw [runSeq, if_neg (by simp [h1]), if_neg (by simp [h2]), if_pos hf]
  split <;> rfl

theorem State.resetNow_succ {s : State} {n : Nat} {b : Bool} (h : s.resetIn = some ⟨n + 1, b⟩) : s.resetNow = false := by
  simp [State.resetNow, h]

theorem State.resetOutstanding_succ {s : State} {n : Nat} {b : Bool} (h : s.resetIn = some ⟨n + 1, b⟩) :
    s.resetOutstanding = false := by
  simp [State.resetOutstanding, h]

theorem issue_resetIn_succ {req : Request} {s : State} {n : Nat} {b : Bool} (h : s.resetIn = some ⟨n + 1, b⟩) :
    (issue req s).resetIn = some ⟨n, b⟩ := by
  simp [h, ResetAt.nearer]

/-- A reset that lands after the first failing answer, before its outcome is delivered, abandons the sequence (R231). -/
theorem runSeq_abandoned_failing (reqs : List Request) (s : State) (k : Nat) (hr : s.resetIn = some ⟨k + 1, false⟩)
    (hok : s.AnswersOk k) (hfail : s.answerAt k = .fail) (hk : k < reqs.length) :
    runSeq reqs s = (.abandoned, issueAll (reqs.take (k + 1)) s) := by
  induction k generalizing reqs s with
  | zero =>
    cases reqs with
    | nil => simp at hk
    | cons r rs =>
      rw [runSeq_cons_fail (State.resetNow_succ hr) (State.resetOutstanding_succ hr) hfail]
      simp [State.resetNow, hr, ResetAt.nearer]
  | succ k ih =>
    cases reqs with
    | nil => simp at hk
    | cons r rs =>
      rw [runSeq_cons_ok (State.resetNow_succ hr) (State.resetOutstanding_succ hr) (hok 0 (by omega)),
        ih rs (issue r s) (issue_resetIn_succ hr) (fun j hj => by rw [answerAt_issue]; exact hok (j + 1) (by omega))
          (by rw [answerAt_issue]; exact hfail) (by simpa using hk)]
      rfl

/-- A reset that lands only after a sequence is done does not touch it. -/
theorem runSeq_done_before (reqs : List Request) (s : State) (n : Nat) (b : Bool) (hr : s.resetIn = some ⟨n, b⟩)
    (hn : reqs.length < n + b.toNat) (h : s.AnswersOk reqs.length) : runSeq reqs s = (.done, issueAll reqs s) := by
  induction reqs generalizing s n with
  | nil => cases n <;> cases b <;> simp at hn <;> simp [runSeq, State.resetNow, hr]
  | cons r rs ih =>
    obtain ⟨n, rfl⟩ : ∃ q, n = q + 1 := ⟨n - 1, by cases b <;> simp at hn <;> omega⟩
    simp only [List.length_cons] at hn
    rw [runSeq_cons_ok (State.resetNow_succ hr) (State.resetOutstanding_succ hr) (h 0 (by simp)),
      ih (issue r s) n (issue_resetIn_succ hr) (by omega)
        (fun j hj => by rw [answerAt_issue]; exact h (j + 1) (by simpa using hj))]
    rfl

/-- A reset that lands only after the first failing answer's outcome does not touch it. -/
theorem runSeq_failed_before (reqs : List Request) (s : State) (k n : Nat) (b : Bool) (hr : s.resetIn = some ⟨n, b⟩)
    (hn : k + 1 < n + b.toNat) (hk : k < reqs.length) (hok : s.AnswersOk k) (hfail : s.answerAt k = .fail) :
    runSeq reqs s = (.failed, issueAll (reqs.take (k + 1)) s) := by
  induction reqs generalizing s k n with
  | nil => simp at hk
  | cons r rs ih =>
    obtain ⟨n, rfl⟩ : ∃ q, n = q + 1 := ⟨n - 1, by cases b <;> simp at hn <;> omega⟩
    cases k with
    | zero =>
      have hnow : (issue r s).resetNow = false := by
        cases n <;> cases b <;> simp at hn <;> simp [State.resetNow, hr, ResetAt.nearer]
      rw [runSeq_cons_fail (State.resetNow_succ hr) (State.resetOutstanding_succ hr) hfail, hnow]
      rfl
    | succ k =>
      rw [runSeq_cons_ok (State.resetNow_succ hr) (State.resetOutstanding_succ hr) (hok 0 (by omega)),
        ih (issue r s) k n (issue_resetIn_succ hr) (by omega) (by simpa using hk)
          (fun j hj => by rw [answerAt_issue]; exact hok (j + 1) (by omega)) (by rw [answerAt_issue]; exact hfail)]
      rfl

/-- Each answered request brings a reset on its way one nearer (R231). -/
theorem issueAll_resetIn_some (reqs : List Request) (s : State) (n : Nat) (b : Bool) (hr : s.resetIn = some ⟨n, b⟩) :
    (issueAll reqs s).resetIn = some ⟨n - reqs.length, b⟩ := by
  induction reqs generalizing s n with
  | nil => exact hr
  | cons r rs ih =>
    rw [issueAll_cons, ih (issue r s) (n - 1) (by simp [hr, ResetAt.nearer]), List.length_cons]
    congr 2
    omega

/-! ### The two sequences -/

/-- A list of requests without a transmit of data leaves the peripheral's registers as they are. -/
theorem issueAll_mem_plain (reqs : List Request) (s : State) (h : ∀ r ∈ reqs, ∀ bs, r ≠ .txn bs) :
    (issueAll reqs s).mem = s.mem := by
  induction reqs generalizing s with
  | nil => rfl
  | cons r rs ih =>
    rw [issueAll_cons, ih _ (fun q hq => h q (List.mem_cons_of_mem _ hq)), issue_mem_plain (h r (by simp))]

theorem readSeq_plain (b : Byte) (n : Nat) : ∀ r ∈ readSeq b n, ∀ bs, r ≠ .txn bs := by
  intro r hr bs
  simp only [readSeq, List.mem_cons, List.not_mem_nil, or_false] at hr
  rcases hr with rfl | rfl | rfl | rfl | rfl | rfl | rfl <;> simp

theorem writeSeq_plain (b : Byte) (image : List Byte) (k : Nat) (hk : k ≤ 3) :
    ∀ r ∈ (writeSeq b image).take k, ∀ bs, r ≠ .txn bs := by
  intro r hr bs
  have := List.take_subset_take_left (writeSeq b image) hk hr
  simp only [writeSeq, List.take_succ_cons, List.take_zero, List.mem_cons, List.not_mem_nil, or_false] at this
  rcases this with rfl | rfl | rfl <;> simp

/-- A write's requests leave the registers as they are or set exactly the image from the pointer on (R49, R57). -/
theorem writeSeq_mem (b : Byte) (image : List Byte) (s : State) (j : Nat) (hj : j ≤ 5)
    (hf : ∀ j', 1 ≤ j' → j' < j → (issueAll ((writeSeq b image).take j') s).failed = false) :
    (issueAll ((writeSeq b image).take j) s).mem = s.mem ∨
      (issueAll ((writeSeq b image).take j) s).mem = Memory.writeBytes s.mem b.toNat image := by
  have low : ∀ k ≤ 3, (issueAll ((writeSeq b image).take k) s).mem = s.mem :=
    fun k hk => issueAll_mem_plain _ _ (writeSeq_plain b image k hk)
  have four : 3 < j → (issueAll ((writeSeq b image).take 4) s).mem = s.mem ∨
      (issueAll ((writeSeq b image).take 4) s).mem = Memory.writeBytes s.mem b.toNat image := by
    intro h
    have h3 := hf 3 (by omega) h
    have e3 : issueAll ((writeSeq b image).take 3) s = issue (.tx b) (issueAll ((writeSeq b image).take 2) s) := rfl
    have e4 : issueAll ((writeSeq b image).take 4) s = issue (.txn image) (issueAll ((writeSeq b image).take 3) s) := rfl
    have hp : (issueAll ((writeSeq b image).take 3) s).ptr = some b := by
      rw [e3] at h3 ⊢
      exact issue_tx_ptr h3
    rw [e4, issue_mem, hp, low 3 (by omega)]
    cases replyTo (.txn image) (issueAll ((writeSeq b image).take 3) s) <;> simp [memAfter]
  by_cases h3 : j ≤ 3
  · exact .inl (low j h3)
  · obtain rfl | rfl : j = 4 ∨ j = 5 := by omega
    · exact four (by omega)
    · have e : issueAll ((writeSeq b image).take 5) s = issue .stop (issueAll ((writeSeq b image).take 4) s) := rfl
      rw [e, issue_mem_plain (by simp)]
      exact four (by omega)

/-- The state after a whole read sequence, every answer `ok` (R154). -/
theorem readSeq_done (g : Group) (s : State) (ha : s.AnswersOk 7) :
    let t := issueAll (readSeq (base g) (len g)) (accept ⟨g, .read⟩ [] s)
    t.trace = s.trace ++ [⟨1, .begin, .ok []⟩, ⟨2, .addr 0xD0, .ok []⟩, ⟨3, .tx (base g), .ok []⟩,
      ⟨4, .restart, .ok []⟩, ⟨5, .addr 0xD1, .ok []⟩, ⟨6, .rx (len g), .ok (s.rxBytes g)⟩, ⟨7, .stop, .ok []⟩] ∧
    t.buf = Buf.ofBytes (s.rxBytes g) ∧ t.bus = .free ∧ t.mem = s.mem := by
  simp only [readSeq, issueAll_cons, issueAll_nil]
  generalize hs0 : accept ⟨g, .read⟩ [] s = s0
  have a0 : ∀ j, s0.answerAt j = s.answerAt j := by subst hs0; exact fun j => rfl
  have r1 : replyTo .begin s0 = .ok [] := replyTo_ok_plain (by rw [a0]; exact ha 0 (by omega)) (by simp)
  generalize hs1 : issue .begin s0 = s1
  have a1 : ∀ j, s1.answerAt j = s.answerAt (j + 1) := by subst hs1; intro j; rw [answerAt_issue, a0]
  have r2 : replyTo (.addr (devAddr .write)) s1 = .ok [] :=
    replyTo_ok_plain (by rw [a1]; exact ha 1 (by omega)) (by simp)
  generalize hs2 : issue (.addr (devAddr .write)) s1 = s2
  have a2 : ∀ j, s2.answerAt j = s.answerAt (j + 2) := by subst hs2; intro j; rw [answerAt_issue, a1]
  have r3 : replyTo (.tx (base g)) s2 = .ok [] := replyTo_ok_plain (by rw [a2]; exact ha 2 (by omega)) (by simp)
  generalize hs3 : issue (.tx (base g)) s2 = s3
  have a3 : ∀ j, s3.answerAt j = s.answerAt (j + 3) := by subst hs3; intro j; rw [answerAt_issue, a2]
  have r4 : replyTo .restart s3 = .ok [] := replyTo_ok_plain (by rw [a3]; exact ha 3 (by omega)) (by simp)
  generalize hs4 : issue .restart s3 = s4
  have a4 : ∀ j, s4.answerAt j = s.answerAt (j + 4) := by subst hs4; intro j; rw [answerAt_issue, a3]
  have r5 : replyTo (.addr (devAddr .read)) s4 = .ok [] :=
    replyTo_ok_plain (by rw [a4]; exact ha 4 (by omega)) (by simp)
  generalize hs5 : issue (.addr (devAddr .read)) s4 = s5
  have a5 : ∀ j, s5.answerAt j = s.answerAt (j + 5) := by subst hs5; intro j; rw [answerAt_issue, a4]
  have r6 : replyTo (.rx (len g)) s5 = .ok (s.rxBytes g) := by
    rw [replyTo_ok (by rw [a5]; exact ha 5 (by omega))]
    simp only [a5, State.rxBytes]
    subst hs5 hs4 hs3 hs2 hs1 hs0
    simp [memAfter, ptrAfter, r5, r4, r3]
  generalize hs6 : issue (.rx (len g)) s5 = s6
  have a6 : ∀ j, s6.answerAt j = s.answerAt (j + 6) := by subst hs6; intro j; rw [answerAt_issue, a5]
  have r7 : replyTo .stop s6 = .ok [] := replyTo_ok_plain (by rw [a6]; exact ha 6 (by omega)) (by simp)
  subst hs6 hs5 hs4 hs3 hs2 hs1 hs0
  simp only [issue_trace, issue_step, accept_trace, accept_step, issue_buf, issue_bus, issue_mem, accept_mem, r1, r2, r3,
    r4, r5, r6, r7, List.append_assoc, bufAfter, busAfter, memAfter]
  refine ⟨?_, ?_, ?_, ?_⟩ <;> first | rfl | trivial

/-- The state after a whole write sequence, every answer `ok` (R155). -/
theorem writeSeq_done (g : Group) (image : List Byte) (s : State) (ha : s.AnswersOk 5) :
    let t := issueAll (writeSeq (base g) image) (accept ⟨g, .write⟩ image s)
    t.trace = s.trace ++ [⟨1, .begin, .ok []⟩, ⟨2, .addr 0xD0, .ok []⟩, ⟨3, .tx (base g), .ok []⟩,
      ⟨4, .txn image, .ok []⟩, ⟨5, .stop, .ok []⟩] ∧
    t.bus = .free ∧ t.mem = Memory.writeBytes s.mem (base g).toNat image := by
  simp only [writeSeq, issueAll_cons, issueAll_nil]
  generalize hs0 : accept ⟨g, .write⟩ image s = s0
  have a0 : ∀ j, s0.answerAt j = s.answerAt j := by subst hs0; exact fun j => rfl
  have r1 : replyTo .begin s0 = .ok [] := replyTo_ok_plain (by rw [a0]; exact ha 0 (by omega)) (by simp)
  generalize hs1 : issue .begin s0 = s1
  have a1 : ∀ j, s1.answerAt j = s.answerAt (j + 1) := by subst hs1; intro j; rw [answerAt_issue, a0]
  have r2 : replyTo (.addr (devAddr .write)) s1 = .ok [] :=
    replyTo_ok_plain (by rw [a1]; exact ha 1 (by omega)) (by simp)
  generalize hs2 : issue (.addr (devAddr .write)) s1 = s2
  have a2 : ∀ j, s2.answerAt j = s.answerAt (j + 2) := by subst hs2; intro j; rw [answerAt_issue, a1]
  have r3 : replyTo (.tx (base g)) s2 = .ok [] := replyTo_ok_plain (by rw [a2]; exact ha 2 (by omega)) (by simp)
  generalize hs3 : issue (.tx (base g)) s2 = s3
  have a3 : ∀ j, s3.answerAt j = s.answerAt (j + 3) := by subst hs3; intro j; rw [answerAt_issue, a2]
  have r4 : replyTo (.txn image) s3 = .ok [] := replyTo_ok_plain (by rw [a3]; exact ha 3 (by omega)) (by simp)
  generalize hs4 : issue (.txn image) s3 = s4
  have a4 : ∀ j, s4.answerAt j = s.answerAt (j + 4) := by subst hs4; intro j; rw [answerAt_issue, a3]
  have r5 : replyTo .stop s4 = .ok [] := replyTo_ok_plain (by rw [a4]; exact ha 4 (by omega)) (by simp)
  subst hs4 hs3 hs2 hs1 hs0
  simp only [issue_trace, issue_step, accept_trace, accept_step, issue_bus, issue_mem, issue_ptr, accept_mem, r1, r2, r3,
    r4, r5, List.append_assoc, busAfter, memAfter, ptrAfter]
  refine ⟨?_, ?_, ?_⟩ <;> first | rfl | trivial

/-! ### Whole operations -/

/-- The end of an operation leaves the registers as the sequence left them, or forgets the group's (R57). -/
theorem finish_mem (o : Op) (r : RunEnd × State) (hp : r.2.phase = .busy) :
    (finish o r).mem = r.2.mem ∨ (finish o r).mem = forgetIfSent r.2 := by
  unfold finish
  split
  · exact .inl rfl
  · exact .inr rfl
  · exact .inr (by simp [hp])

theorem finish_frame (o : Op) (r : RunEnd × State) :
    (finish o r).cmdIn = r.2.cmdIn ∧ (finish o r).otherMaster = r.2.otherMaster ∧
      (r.2.resetIn = none → (finish o r).resetIn = none) := by
  unfold finish
  split <;> simp

/-- A write's image stands in the buffer once the command is accepted (R158). -/
theorem acceptCommand_image (i : Instr) (s : State) (hd : i.dir = .write) :
    Buf.bytes (acceptCommand i s).buf (len i.group) = some (imageOf i) := by
  have := Buf.bytes_ofBytes (imageOf i) (by rw [imageOf_length i hd]; exact len_le_seven _)
  rw [imageOf_length i hd] at this
  exact this

theorem State.Ready.busTaken {s : State} (h : s.Ready) : s.busTaken = false := by simp [State.busTaken, h.1, h.2.1]

/-- A command of a ready block answers a next state: the end of its sequence (R180). -/
theorem exec_of_not_taken (i : Instr) (s : State) (h : s.busTaken = false) :
    exec i s = .next (finish ⟨i.group, i.dir⟩ (runSeq (requestsOf i) (acceptCommand i s))) := by
  cases i <;> simp only [exec, execWriteClock, execReadClock, execWriteAlarm1, execReadAlarm1, execWriteAlarm2,
    execReadAlarm2, execWriteControl, execReadControl, readGroup, writeGroup, h] <;> rfl

theorem exec_of_taken (i : Instr) (s : State) (h : s.busTaken = true) : exec i s = .fault .interleaved := by
  cases i <;> simp only [exec, execWriteClock, execReadClock, execWriteAlarm1, execReadAlarm1, execWriteAlarm2,
    execReadAlarm2, execWriteControl, execReadControl, readGroup, writeGroup, h]

theorem exec_next {i : Instr} {s t : State} (h : exec i s = .next t) :
    s.busTaken = false ∧ t = finish ⟨i.group, i.dir⟩ (runSeq (requestsOf i) (acceptCommand i s)) := by
  cases hb : s.busTaken with
  | true => rw [exec_of_taken i s hb] at h; cases h
  | false =>
    rw [exec_of_not_taken i s hb] at h
    exact ⟨rfl, by cases h; rfl⟩

theorem requests_length (i : Instr) : (requestsOf i).length = lastStep i.dir := by cases i <;> rfl

/-- A command all of whose answers are `ok` (R180). -/
theorem exec_ok (i : Instr) (s : State) (hs : s.Ready) (h : s.AnswersOk (lastStep i.dir)) :
    exec i s = .next (completeOk (delivered ⟨i.group, i.dir⟩ (issueAll (requestsOf i) (acceptCommand i s)))
      (issueAll (requestsOf i) (acceptCommand i s))) := by
  rw [exec_of_not_taken i s hs.busTaken, runSeq_done _ _ (by simpa [acceptCommand] using hs.2.2)
    (by rw [requests_length]; exact h)]
  rfl

/-- A command whose first failing step is `k` (R180, R205). -/
theorem exec_fail (i : Instr) (s : State) (k : Nat) (hs : s.Ready) (hk : k ≤ lastStep i.dir) (h : s.FailsAt k) :
    exec i s = .next (transactionFailure (issueAll ((requestsOf i).take k) (acceptCommand i s))) := by
  obtain ⟨h1, hok, hfail⟩ := h
  rw [exec_of_not_taken i s hs.busTaken, runSeq_failed (requestsOf i) (acceptCommand i s) (k - 1) (by simpa [acceptCommand] using hs.2.2)
    (by rw [requests_length]; omega) hok hfail]
  simp only [Nat.sub_add_cancel h1]
  rfl

end Sys2Proof.Machine
end

