-- ==== Sys2Proof/Laws/Sequencer.lean ====
section
/-!
SUPPORT. The sequencer as a step relation (spec/42_transactions.md R158): what its next move is, and how single
transitions make up a run.
-/

namespace Sys2Proof.Machine

/-- The full request list of an operation, a write's data given. -/
def fullSeq (o : Op) (image : List Byte) : List Request :=
  match o.dir with
  | .read => readSeq (base o.group) (len o.group)
  | .write => writeSeq (base o.group) image

theorem fullSeq_length (o : Op) (image : List Byte) : (fullSeq o image).length = lastStep o.dir := by
  unfold fullSeq
  cases o.dir <;> rfl

/-- The sequencer's next move is the next request of its list, or completion after the last. -/
theorem nextMove_eq (o : Op) (buf : Buf) (image : List Byte) (k : Nat)
    (h : o.dir = .write → Buf.bytes buf (len o.group) = some image) :
    nextMove o buf k = match (fullSeq o image)[k]? with | some r => .request r | none => .complete := by
  unfold nextMove fullSeq
  obtain ⟨g, d⟩ := o
  cases d with
  | read =>
    show (match (readSeq (base g) (len g))[k]? with | some r => SeqMove.request r | none => SeqMove.complete) = _
    cases (readSeq (base g) (len g))[k]? <;> rfl
  | write =>
    have := h rfl
    simp only at this ⊢
    rw [this]
    match k with
    | 0 => rfl
    | 1 => rfl
    | 2 => rfl
    | 3 => rfl
    | 4 => rfl
    | k + 5 => simp [writeSeq]

theorem step_of_busy {s : State} {o : Op} (h1 : s.phase = .busy) (h2 : s.op = some o) (h3 : s.otherMaster = false) :
    step s = transitionOf o s := by
  simp [step, h1, transition, h2, h3]

theorem runSteps_succ {s t : State} (n : Nat) (h : step s = .next t) : runSteps (n + 1) s = runSteps n t := by
  rw [runSteps, h]

/-- Every request of an operation is one the block may issue (R48, R54, R152). -/
theorem fullSeq_legal (o : Op) (image : List Byte) (him : o.dir = .write → image.length = len o.group) (r : Request)
    (h : r ∈ fullSeq o image) : Request.legal r = true := by
  obtain ⟨g, d⟩ := o
  cases d with
  | read =>
    simp only [fullSeq, readSeq, List.mem_cons, List.not_mem_nil, or_false] at h
    rcases h with rfl | rfl | rfl | rfl | rfl | rfl | rfl <;> cases g <;> rfl
  | write =>
    have := him rfl
    simp only [fullSeq, writeSeq, List.mem_cons, List.not_mem_nil, or_false] at h
    rcases h with rfl | rfl | rfl | rfl | rfl
    · rfl
    · rfl
    · cases g <;> rfl
    · cases g <;> simp [Request.legal, this, len]
    · rfl

/-- Forgetting keeps the registers' canonical form and adds none. -/
theorem forgetIfSent_keeps {s : State} (h1 : Memory.wf s.mem = true) (h2 : ∀ c ∈ s.mem, c.1 < 16) :
    Memory.wf (forgetIfSent s) = true ∧ ∀ c ∈ forgetIfSent s, c.1 < 16 := by
  unfold forgetIfSent
  split
  · split
    · exact ⟨Memory.forget_wf _ _ _ h1, fun c hc => h2 c (Memory.mem_forget _ _ _ _ hc)⟩
    · exact ⟨h1, h2⟩
  · exact ⟨h1, h2⟩
  · exact ⟨h1, h2⟩

/-- Every memory operation a request can make keeps the canonical form. -/
theorem issue_mem_wf (req : Request) (s : State) (h : Memory.wf s.mem = true) : Memory.wf (issue req s).mem = true := by
  rw [issue_mem]
  unfold memAfter
  split
  · split
    · exact Memory.writeBytes_wf _ _ _ h
    · rfl
  all_goals exact h

end Sys2Proof.Machine
end

