-- ==== Sys2Proof/Tests/Slice0.lean ====
section
/-!
SUPPORT. Tests, and a witness for every statement that has hypotheses.

Expected results are the spec's own: spec/95_test_vectors.md (S, V, T, O and P vectors), the encodings of
spec/30_encoding.md R70 to R74 written out bit by bit, and the examples of the rules.
-/

namespace Sys2Proof.Tests

open Sys2Proof.Machine

/-! ### The spec's example values -/

/-- S1's clock value. -/
def s1 : ClockValue := ⟨45, 30, 13, 3, 27, 0, 6, 24⟩

/-- S2's alarm value. -/
def s2 : AlarmValue := ⟨1, 0, 0, 15, 1, 0, 0, 10⟩

/-- V3's clock value, out of range. -/
def v3 : ClockValue := ⟨80, 59, 45, 9, 40, 1, 20, 100⟩

/-- V11's alarm value. -/
def v11 : AlarmValue := ⟨1, 30, 1, 45, 0, 7, 1, 31⟩

/-! ### Decoding: each word as RSV, GRP and DIR (R70 to R74), payloads of P1 to P3 -/

theorem test_decode_writeClock : decode [0b00000_00_0, 0x2D, 0x1E, 0x0D, 0x03, 0x1B, 0x00, 0x06, 0x18] =
    .ok (.writeClock s1, []) := by rfl

theorem test_decode_readClock : decode [0b00000_00_1, 0x55] = .ok (.readClock, [0x55]) := by rfl

theorem test_decode_writeAlarm1 : decode [0b00000_01_0, 0x01, 0x00, 0x00, 0x0F, 0x01, 0x00, 0x00, 0x0A] =
    .ok (.writeAlarm1 s2, []) := by rfl

theorem test_decode_readAlarm1 : decode [0b00000_01_1] = .ok (.readAlarm1, []) := by rfl

theorem test_decode_writeAlarm2 : decode [0b00000_10_0, 0x01, 0x1E, 0x01, 0x2D, 0x00, 0x07, 0x01, 0x1F] =
    .ok (.writeAlarm2 v11, []) := by rfl

theorem test_decode_readAlarm2 : decode [0b00000_10_1] = .ok (.readAlarm2, []) := by rfl

theorem test_decode_writeControl : decode [0b00000_11_0, 0x1C, 0x08] = .ok (.writeControl ⟨0x1C, 0x08⟩, []) := by rfl

theorem test_decode_readControl : decode [0b00000_11_1] = .ok (.readControl, []) := by rfl

/-- A flag byte's bits 7:1 are ignored (R95). -/
theorem test_decode_flag_bits : decode [0x02, 0xFE, 0x00, 0xFF, 0x00, 0x00, 0x00, 0x80, 0x00] =
    .ok (.writeAlarm1 ⟨0, 0, 1, 0, 0, 0, 0, 0⟩, []) := by rfl

/-- The refused words of spec/95 2.4. -/
theorem test_decode_refused : [0x08, 0x80, 0x87, 0xFF].map (fun w => decode [w, 0x00]) =
    [.error (.reserved 0x08), .error (.reserved 0x80), .error (.reserved 0x87), .error (.reserved 0xFF)] := by rfl

/-- A payload that is not all there (R88). -/
theorem test_decode_incomplete : decode [0x06, 0x1C] = .error .incomplete := by rfl

/-- The encoder, on P3 and P2. -/
theorem test_encode : encode (.writeAlarm2 v11) = [0x04, 0x01, 0x1E, 0x01, 0x2D, 0x00, 0x07, 0x01, 0x1F] ∧
    encode (.writeClock v3) = [0x00, 0x50, 0x3B, 0x2D, 0x09, 0x28, 0x01, 0x14, 0x64] ∧
    encode (.writeControl ⟨0x1C, 0x08⟩) = [0x06, 0x1C, 0x08] ∧ encode .readAlarm2 = [0x05] := by decide

theorem test_decodeTableWord : (List.range 9).map (decodeTableWord 8) =
    [some (.writeClock ⟨0, 0, 0, 0, 0, 0, 0, 0⟩), some .readClock, some (.writeAlarm1 ⟨0, 0, 0, 0, 0, 0, 0, 0⟩),
      some .readAlarm1, some (.writeAlarm2 ⟨0, 0, 0, 0, 0, 0, 0, 0⟩), some .readAlarm2, some (.writeControl ⟨0, 0⟩),
      some .readControl, none] := by decide

/-- Operand bytes follow the word at the higher bits. -/
theorem test_decodeTableWord_operands : decodeTableWord 24 0x081C06 = some (.writeControl ⟨0x1C, 0x08⟩) := by decide

/-! ### The host's range checks refuse ill-formed values (R106, R75, R76, R238) -/

theorem test_ranges_clock_first_out : [80, 81].map (fun x => ({ s1 with seconds := x } : ClockValue).representable) =
      [false, false] ∧ ({ s1 with minutes := 80 } : ClockValue).representable = false ∧
    ({ s1 with hours := 40 } : ClockValue).representable = false ∧
    ({ s1 with day := 8 } : ClockValue).representable = false ∧
    ({ s1 with date := 40 } : ClockValue).representable = false ∧
    ({ s1 with month := 20 } : ClockValue).representable = false ∧
    ({ s1 with year := 160 } : ClockValue).representable = false := by decide

theorem test_ranges_clock_valid : s1.valid = true ∧ ({ s1 with seconds := 60 } : ClockValue).valid = false ∧
    ({ s1 with minutes := 60 } : ClockValue).valid = false ∧ ({ s1 with hours := 24 } : ClockValue).valid = false ∧
    ({ s1 with day := 0 } : ClockValue).valid = false ∧ ({ s1 with date := 0 } : ClockValue).valid = false ∧
    ({ s1 with date := 32 } : ClockValue).valid = false ∧ ({ s1 with month := 13 } : ClockValue).valid = false ∧
    ({ s1 with year := 100 } : ClockValue).valid = false := by decide

theorem test_ranges_alarm : s2.valid = true ∧ ({ s2 with seconds := 80 } : AlarmValue).representable = false ∧
    ({ s2 with minutes := 80 } : AlarmValue).representable = false ∧
    ({ s2 with hours := 40 } : AlarmValue).representable = false ∧
    ({ s2 with date := 40 } : AlarmValue).representable = false ∧
    ({ s2 with seconds := 60 } : AlarmValue).valid = false ∧ ({ s2 with date := 0 } : AlarmValue).valid = false := by
  decide

theorem test_ranges_instr : (Instr.writeClock v3).representable = false ∧
    (Instr.writeAlarm1 { s2 with hours := 40 }).representable = false ∧
    (Instr.writeAlarm2 { v11 with hours := 40 }).representable = false ∧
    (Instr.writeAlarm2 { v11 with seconds := 255 }).representable = true ∧
    (Instr.writeAlarm2 { v11 with date := 32 }).valid = false ∧ (Instr.writeControl ⟨255, 255⟩).valid = true := by
  decide

/-! ### The codec -/

/-- R101's corner cases. -/
theorem test_decodeBcdField : decodeBcdField 4 5 = 45 ∧ decodeBcdField 0 15 = 15 ∧ decodeBcdField 7 15 = 85 ∧
    decodeBcdField 15 15 = 165 := by decide

/-- Rows of spec/95 2.1, all four tens widths. -/
theorem test_packBcd : [packBcd 79 1, packBcd 79 2, packBcd 79 3, packBcd 79 4] = [0x19, 0x39, 0x79, 0x79] ∧
    [packBcd 100 1, packBcd 100 2, packBcd 100 3, packBcd 100 4] = [0x00, 0x20, 0x20, 0xA0] ∧
    [packBcd 255 1, packBcd 255 2, packBcd 255 3, packBcd 255 4] = [0x15, 0x15, 0x15, 0x95] := by decide

theorem test_unpackBcd : [unpackBcd 0x71 1, unpackBcd 0x71 2, unpackBcd 0x71 3, unpackBcd 0x71 4] = [11, 31, 71, 71] ∧
    [unpackBcd 0x9F 1, unpackBcd 0x9F 2, unpackBcd 0x9F 3, unpackBcd 0x9F 4] = [25, 25, 25, 105] := by decide

theorem test_packPlain : [packPlain 7 0 3, packPlain 8 0 3, packPlain 9 0 3, packPlain 255 0 3, packPlain 1 7 1] =
    [7, 0, 1, 7, 0x80] := by decide

/-- V1 and V3. -/
theorem test_encodeClock : (encodeClock ⟨59, 59, 23, 7, 31, 1, 12, 99⟩).toList = [0x59, 0x59, 0x23, 0x07, 0x31, 0x92, 0x99] ∧
    (encodeClock v3).toList = [0x00, 0x59, 0x05, 0x01, 0x00, 0x80, 0xA0] := by decide

/-- V4 and V5. -/
theorem test_decodeClock : decodeClock #v[0x00, 0x59, 0x05, 0x01, 0x00, 0x80, 0xA0] = ⟨0, 59, 5, 1, 0, 1, 0, 100⟩ ∧
    decodeClock #v[0xFF, 0xFF, 0xFF, 0xFF, 0xFF, 0xFF, 0xFF] = ⟨85, 85, 45, 7, 45, 1, 25, 165⟩ := by decide

/-- V8, V9 and V10. -/
theorem test_alarm1 : (encodeAlarm1 ⟨1, 255, 1, 255, 1, 255, 1, 255⟩).toList = [0x95, 0x95, 0x95, 0x95] ∧
    (encodeAlarm1 ⟨0, 80, 0, 0, 0, 0, 0, 0⟩).toList = [0, 0, 0, 0] ∧
    decodeAlarm1 #v[0xFF, 0xFF, 0xFF, 0xFF] = ⟨1, 85, 1, 85, 1, 45, 1, 45⟩ := by decide

/-- V11 and S5. -/
theorem test_alarm2 : (encodeAlarm2 v11).toList = [0xC5, 0x07, 0xB1] ∧
    decodeAlarm2 #v[0xFF, 0xFF, 0xFF] = ⟨0, 0, 1, 85, 1, 45, 1, 45⟩ := by decide

/-! ### One step per command -/

/-- From reset, with a command stream and the transport's answers given. -/
def given (answers : List Answer) (cmdIn : List Byte) : State := { State.reset with answers := answers, cmdIn := cmdIn }

/-- The transport answers `n` requests `ok`. -/
def oks (n : Nat) : List Answer := List.replicate n (.ok [])

/-- The transport answers `k - 1` requests `ok` and the `k`-th `fail`. -/
def failAt (k : Nat) : List Answer := oks (k - 1) ++ [.fail]

/-- The transport answers a read `ok`, delivering `bytes`. -/
def delivering (bytes : List Byte) : List Answer := oks 5 ++ [.ok bytes, .ok []]

/-- Outcome, delivered value and requests of a step. -/
def seen : Host.Outcome State Fault Refusal → Option (Option Result × Option HostValue × List Request)
  | .next t => some (t.res, t.vout, t.trace.map Event.req)
  | .fault _ => none
  | .refused _ => none

/-- O1. -/
theorem test_readClock : seen (step (given (delivering [0x45, 0x30, 0x13, 0x03, 0x27, 0x06, 0x24]) [0x01])) =
    some (some .ok, some (.clock s1),
      [.begin, .addr 0xD0, .tx 0x00, .restart, .addr 0xD1, .rx 7, .stop]) := by decide

/-- O2. -/
theorem test_writeClock : seen (step (given (oks 5) [0x00, 45, 30, 13, 3, 27, 0, 6, 24])) =
    some (some .ok, none,
      [.begin, .addr 0xD0, .tx 0x00, .txn [0x45, 0x30, 0x13, 0x03, 0x27, 0x06, 0x24], .stop]) := by decide

/-- O9: truncation is not a failure. -/
theorem test_writeClock_truncates : seen (exec (.writeClock v3) (given (oks 5) [])) =
    some (some .ok, none,
      [.begin, .addr 0xD0, .tx 0x00, .txn [0x00, 0x59, 0x05, 0x01, 0x00, 0x80, 0xA0], .stop]) := by decide

/-- O3. -/
theorem test_readAlarm1 : seen (step (given (delivering [0x80, 0x15, 0x80, 0x10]) [0x03])) =
    some (some .ok, some (.alarm s2), [.begin, .addr 0xD0, .tx 0x07, .restart, .addr 0xD1, .rx 4, .stop]) := by decide

/-- O10: the fifth request fails. -/
theorem test_readAlarm1_fails : seen (step (given (failAt 5) [0x03])) =
    some (some .fail, none, [.begin, .addr 0xD0, .tx 0x07, .restart, .addr 0xD1]) := by decide

/-- O4. -/
theorem test_writeAlarm1 : seen (step (given (oks 5) [0x02, 1, 0, 0, 15, 1, 0, 0, 10])) =
    some (some .ok, none, [.begin, .addr 0xD0, .tx 0x07, .txn [0x80, 0x15, 0x80, 0x10], .stop]) := by decide

/-- O5. -/
theorem test_readAlarm2 : seen (step (given (delivering [0xC5, 0x07, 0xB1]) [0x05])) =
    some (some .ok, some (.alarm ⟨0, 0, 1, 45, 0, 7, 1, 31⟩),
      [.begin, .addr 0xD0, .tx 0x0B, .restart, .addr 0xD1, .rx 3, .stop]) := by decide

/-- O6. -/
theorem test_writeAlarm2 : seen (exec (.writeAlarm2 v11) (given (oks 5) [])) =
    some (some .ok, none, [.begin, .addr 0xD0, .tx 0x0B, .txn [0xC5, 0x07, 0xB1], .stop]) := by decide

/-- O7 (T-Rok). -/
theorem test_readControl : seen (step (given (delivering [0x1C, 0x88]) [0x07])) =
    some (some .ok, some (.control ⟨0x1C, 0x88⟩),
      [.begin, .addr 0xD0, .tx 0x0E, .restart, .addr 0xD1, .rx 2, .stop]) := by decide

/-- T-R7: the stop fails and the data that arrived is not delivered. -/
theorem test_readControl_stop_fails : seen (step (given (oks 5 ++ [.ok [0x1C, 0x88], .fail]) [0x07])) =
    some (some .fail, none, [.begin, .addr 0xD0, .tx 0x0E, .restart, .addr 0xD1, .rx 2, .stop]) := by decide

/-- O8 (T-Wok). -/
theorem test_writeControl : seen (step (given (oks 5) [0x06, 0x1C, 0x08])) =
    some (some .ok, none, [.begin, .addr 0xD0, .tx 0x0E, .txn [0x1C, 0x08], .stop]) := by decide

/-- T-W4: no stop follows the failed transmit. -/
theorem test_writeControl_data_fails : seen (step (given (failAt 4) [0x06, 0x1C, 0x08])) =
    some (some .fail, none, [.begin, .addr 0xD0, .tx 0x0E, .txn [0x1C, 0x08]]) := by decide

/-- Whether a step answers a next state. -/
def goesOn : Host.Outcome State Fault Refusal → Bool
  | .next _ => true
  | .fault _ => false
  | .refused _ => false

/-- The first step after reset runs each of the eight words, whatever the transport answers. -/
theorem test_withFetchWord : ((List.range 8).map fun w => goesOn (step (State.reset.withFetchWord 8 w))) =
    List.replicate 8 true := by rfl

/-! ### The assembler: P1 and R89 -/

theorem test_assemble_p1 : assembleProgram
    [⟨.WRITE_CLOCK, [(.seconds, 45), (.minutes, 30), (.hours, 13), (.day, 3), (.date, 27), (.century, 0), (.month, 6),
      (.year, 24)]⟩, ⟨.READ_CLOCK, []⟩] =
    .ok [0x00, 0x2D, 0x1E, 0x0D, 0x03, 0x1B, 0x00, 0x06, 0x18, 0x01] := by rfl

theorem test_assemble_missing : assemble ⟨.WRITE_CONTROL, [(.stat, 8)]⟩ = .error (.missing .ctrl) := by rfl

/-! ### Witnesses: states and operands that meet the hypotheses of each statement -/

theorem given_ready (as : List Answer) (cs : List Byte) : (given as cs).Ready := ⟨rfl, rfl, rfl⟩

theorem read_oks : (given (oks 7) []).AnswersOk 7 := by unfold State.AnswersOk; decide

theorem write_oks : (given (oks 5) []).AnswersOk 5 := by unfold State.AnswersOk; decide

/-- Every step can be the first failing one. -/
theorem fails_at : ∀ k ≤ 7, 1 ≤ k → (given (failAt k) []).FailsAt k := by
  unfold State.FailsAt State.AnswersOk
  decide

theorem witness_DecodeEncodeRoundTrip : (Instr.writeClock v3).wellFormed = true ∧ Instr.readControl.wellFormed = true :=
  ⟨rfl, rfl⟩

/-- The first and the last reserved word. -/
theorem witness_ReservedWordsRefused :
    (let s := given [] [0x08]; s.phase = .idle ∧ s.resetNow = false ∧ s.cmdIn = 0x08 :: [] ∧
      8 ≤ (0x08 : Byte).toNat ∧ step s = .refused (.reservedCommand 0x08)) ∧
    (let s := given [] [0xFF, 0x00]; s.phase = .idle ∧ s.resetNow = false ∧ s.cmdIn = 0xFF :: [0x00] ∧
      8 ≤ (0xFF : Byte).toNat ∧ step s = .refused (.reservedCommand 0xFF)) :=
  ⟨⟨rfl, rfl, rfl, by decide, rfl⟩, rfl, rfl, rfl, by decide, rfl⟩

theorem witness_StepRunsDecodedCommand : let s := given [] [0x06, 0x1C, 0x08, 0x07]
    s.phase = .idle ∧ s.resetNow = false ∧ (Instr.writeControl ⟨0x1C, 0x08⟩).wellFormed = true ∧
      decode s.cmdIn = .ok (.writeControl ⟨0x1C, 0x08⟩, [0x07]) := ⟨rfl, rfl, rfl, rfl⟩

/-- An empty stream, and payloads one byte short. -/
theorem witness_WaitsWithoutCommand : (given [] []).cmdIn = [] ∧
    (∀ cs ∈ [[], [0x00, 1, 2, 3, 4, 5, 6, 7], [0x02, 1, 2, 3, 4, 5, 6, 7], [0x04], [0x06, 0x1C]],
      let s := given [] cs; s.phase = .idle ∧ s.resetNow = false) ∧
    [1, 2, 3, 4, 5, 6, (7 : Byte)].length < 8 ∧ [(0x1C : Byte)].length < 2 := by decide

/-- A read of the control registers just accepted. -/
def busyRead (answers : List Answer) : State := acceptCommand .readControl (given answers [])

/-- A write of the control registers just accepted. -/
def busyWrite (answers : List Answer) : State := acceptCommand (.writeControl ⟨0x1C, 0x08⟩) (given answers [])

/-- After `n` requests. -/
def after (i : Instr) (n : Nat) (s : State) : State := ((requestsOf i).take n).foldl (fun s r => issue r s) s

/-- A busy step goes on, and so does the step that ends the operation. -/
theorem witness_BusyTakesNoCommand : (busyRead []).phase = .busy ∧ (∃ t, step (busyRead []) = .next t) ∧
    (let s := after .readControl 1 (busyRead (failAt 1)); s.phase = .busy ∧ ∃ t, step s = .next t) :=
  ⟨rfl, ⟨_, rfl⟩, rfl, _, rfl⟩

theorem witness_DecodeBcdFieldArithmetic : (15 : Byte).toNat ≤ 15 ∧ (0 : Byte).toNat ≤ 15 := by decide

theorem witness_PackUnpackPlainArithmetic : 0 + 8 ≤ 8 ∧ 7 + 1 ≤ 8 ∧ 8 + 0 ≤ 8 := by decide

/-- Both ends of the tens widths. -/
theorem witness_PackUnpackBcdArithmetic : 1 ≤ 1 ∧ 1 ≤ 4 ∧ 4 ≤ 4 := by decide

theorem witness_BcdRoundTripTruncates : 1 ≤ 1 ∧ 1 ≤ 4 ∧ 4 ≤ 4 := by decide

theorem witness_ReadClockDelivers : let s := given (delivering [0x45, 0x30, 0x13, 0x03, 0x27, 0x06, 0x24]) []
    s.Ready ∧ s.AnswersOk 7 ∧ s.rxBytes .clock = [0x45, 0x30, 0x13, 0x03, 0x27, 0x06, 0x24] :=
  ⟨given_ready _ _, by unfold State.AnswersOk; decide, by decide⟩

theorem witness_ReadAlarm1Delivers : let s := given (delivering [0x80, 0x15, 0x80, 0x10]) []
    s.Ready ∧ s.AnswersOk 7 ∧ s.rxBytes .alarm1 = [0x80, 0x15, 0x80, 0x10] :=
  ⟨given_ready _ _, by unfold State.AnswersOk; decide, by decide⟩

theorem witness_ReadAlarm2Delivers : let s := given (delivering [0xC5, 0x07, 0xB1]) []
    s.Ready ∧ s.AnswersOk 7 ∧ s.rxBytes .alarm2 = [0xC5, 0x07, 0xB1] :=
  ⟨given_ready _ _, by unfold State.AnswersOk; decide, by decide⟩

theorem witness_ReadControlDelivers : let s := given (delivering [0x1C, 0x88]) []
    s.Ready ∧ s.AnswersOk 7 ∧ s.rxBytes .control = [0x1C, 0x88] :=
  ⟨given_ready _ _, by unfold State.AnswersOk; decide, by decide⟩

/-- The failing clause of the four reads, at the first and the last step. -/
theorem witness_reads_fail : (given (failAt 1) []).Ready ∧ (given (failAt 1) []).FailsAt 1 ∧
    (given (failAt 7) []).Ready ∧ (given (failAt 7) []).FailsAt 7 :=
  ⟨given_ready _ _, fails_at 1 (by decide) (by decide), given_ready _ _, fails_at 7 (by decide) (by decide)⟩

theorem witness_WriteClockSends : (given (oks 5) []).Ready ∧ (given (oks 5) []).AnswersOk 5 :=
  ⟨given_ready _ _, write_oks⟩

theorem witness_WriteAlarm1Sends : (given (oks 5) []).Ready ∧ (given (oks 5) []).AnswersOk 5 :=
  ⟨given_ready _ _, write_oks⟩

theorem witness_WriteAlarm2Sends : (given (oks 5) []).Ready ∧ (given (oks 5) []).AnswersOk 5 :=
  ⟨given_ready _ _, write_oks⟩

theorem witness_WriteControlSends : (given (oks 5) []).Ready ∧ (given (oks 5) []).AnswersOk 5 :=
  ⟨given_ready _ _, write_oks⟩

/-- The failing clause of the four writes, at the first and the last step. -/
theorem witness_writes_fail : (given (failAt 1) []).Ready ∧ (given (failAt 1) []).FailsAt 1 ∧
    (given (failAt 5) []).Ready ∧ (given (failAt 5) []).FailsAt 5 :=
  ⟨given_ready _ _, fails_at 1 (by decide) (by decide), given_ready _ _, fails_at 5 (by decide) (by decide)⟩

theorem witness_OutcomeOkExactlyAllAnswersOk : (given (oks 7) []).Ready ∧ (given (failAt 3) []).Ready :=
  ⟨given_ready _ _, given_ready _ _⟩

theorem witness_FirstFailEndsOperation :
    ((given (failAt 7) []).Ready ∧ 7 ≤ lastStep Instr.readClock.dir ∧ (given (failAt 7) []).FailsAt 7) ∧
    ((given (failAt 5) []).Ready ∧ 5 ≤ lastStep (Instr.writeClock s1).dir ∧ (given (failAt 5) []).FailsAt 5) ∧
    ((given (failAt 1) []).Ready ∧ 1 ≤ lastStep Instr.readClock.dir ∧ (given (failAt 1) []).FailsAt 1) :=
  ⟨⟨given_ready _ _, by decide, fails_at 7 (by decide) (by decide)⟩,
    ⟨given_ready _ _, by decide, fails_at 5 (by decide) (by decide)⟩,
    given_ready _ _, by decide, fails_at 1 (by decide) (by decide)⟩

theorem witness_AddressFixity : (given (oks 7) []).Ready := given_ready _ _

theorem witness_ReadFrameOnBus : Instr.readAlarm2.dir = .read ∧ (given (oks 7) []).Ready ∧
    (given (oks 7) []).AnswersOk 7 := ⟨rfl, given_ready _ _, read_oks⟩

theorem witness_WriteFrameOnBus : (Instr.writeAlarm2 v11).dir = .write ∧ (given (oks 5) []).Ready ∧
    (given (oks 5) []).AnswersOk 5 := ⟨rfl, given_ready _ _, write_oks⟩

/-- Both directions go on. An address below a group, the first above it, and no reset on its way. -/
theorem witness_CommandFrame : (∃ t, exec .readClock (given (oks 7) []) = .next t) ∧
    (∃ t, exec (.writeAlarm1 s2) (given (oks 5) []) = .next t) ∧ (given (oks 7) []).resetIn = none ∧
    Instr.readClock.dir = .read ∧ (Instr.writeAlarm1 s2).dir = .write ∧
    6 < (base (Instr.writeAlarm1 s2).group).toNat ∧
    (base (Instr.writeAlarm1 s2).group).toNat + len (Instr.writeAlarm1 s2).group ≤ 11 :=
  ⟨⟨_, rfl⟩, ⟨_, rfl⟩, rfl, rfl, rfl, by decide, by decide⟩

theorem witness_WriteEffectOnPeripheral : (Instr.writeClock s1).dir = .write ∧
    ((given (oks 5) []).Ready ∧ (given (oks 5) []).AnswersOk 5) ∧
    ((given (failAt 3) []).Ready ∧ (given (failAt 3) []).FailsAt 3) ∧
    ((given (failAt 4) []).Ready ∧ (given (failAt 4) []).FailsAt 4) ∧
    ((given (failAt 5) []).Ready ∧ (given (failAt 5) []).FailsAt 5) :=
  ⟨rfl, ⟨given_ready _ _, write_oks⟩, ⟨given_ready _ _, fails_at 3 (by decide) (by decide)⟩,
    ⟨given_ready _ _, fails_at 4 (by decide) (by decide)⟩, given_ready _ _, fails_at 5 (by decide) (by decide)⟩

theorem witness_ControlLoopback : let s := given (List.replicate 12 .okRegs) []
    s.Ready ∧ ∀ j < 12, s.answerAt j = .okRegs := ⟨given_ready _ _, by decide⟩

theorem witness_InterleavingFaults : (busyRead []).phase = .busy ∧
    (let s : State := { State.reset with otherMaster := true }; s.phase = .idle ∧ s.otherMaster = true) ∧
    (let s : State := { busyRead [] with otherMaster := true }; s.phase = .busy ∧ s.otherMaster = true) :=
  ⟨rfl, ⟨rfl, rfl⟩, rfl, rfl⟩

/-- Two states that differ in everything an earlier operation leaves. -/
theorem witness_NoStateCarriedOver : let s₁ := given (oks 7) []
    let s₂ : State :=
      { s₁ with
        step := 4, op := some ⟨.clock, .write⟩, buf := Buf.ofBytes [1, 2, 3], res := some .fail, done := true
        trace := [⟨1, .begin, .fail⟩], bus := .unknown, ptr := some 0x07, cmdIn := [0x05] }
    s₁.Ready ∧ s₂.Ready ∧ s₁.answers = s₂.answers ∧ s₁.draws = s₂.draws ∧ s₁.mem = s₂.mem ∧ s₁ ≠ s₂ :=
  ⟨⟨rfl, rfl, rfl⟩, ⟨rfl, rfl, rfl⟩, rfl, rfl, rfl, by decide⟩

/-- Without a reset and with one. -/
theorem witness_SequencerAgreesWithOperation :
    (let s := given (oks 7) []; s.phase = .idle ∧ s.otherMaster = false ∧ s.resetIn = none) ∧
    (let s : State := { given (oks 7) [] with resetIn := some ⟨3, true⟩ }; s.phase = .idle ∧ s.otherMaster = false) :=
  ⟨⟨rfl, rfl, rfl⟩, rfl, rfl⟩

/-- At the first step, and at the step of a write that sends the data. -/
theorem witness_SequencerIssuesNextRequest :
    (let s := busyRead (oks 7); s.phase = .busy ∧ s.op = some ⟨.control, .read⟩ ∧ s.otherMaster = false ∧
      s.resetIn = none ∧ s.failed = false ∧ s.step.val < lastStep .read) ∧
    (let s := after (.writeControl ⟨0x1C, 0x08⟩) 3 (busyWrite (oks 5)); s.phase = .busy ∧
      s.op = some ⟨.control, .write⟩ ∧ s.otherMaster = false ∧ s.resetIn = none ∧ s.failed = false ∧ s.step.val = 3 ∧
      s.step.val < lastStep .write ∧ Buf.bytes s.buf (len .control) = some [0x1C, 0x08]) := by decide

theorem witness_SequencerDeliversOk :
    (let s := after .readControl 7 (busyRead (delivering [0x1C, 0x88])); s.phase = .busy ∧
      s.op = some ⟨.control, .read⟩ ∧ s.otherMaster = false ∧ s.resetIn = none ∧ s.failed = false ∧
      s.step.val = lastStep .read ∧ Buf.bytes s.buf (len .control) = some [0x1C, 0x88]) ∧
    (let s := after (.writeControl ⟨0x1C, 0x08⟩) 5 (busyWrite (oks 5)); s.phase = .busy ∧
      s.op = some ⟨.control, .write⟩ ∧ s.otherMaster = false ∧ s.resetIn = none ∧ s.failed = false ∧
      s.step.val = lastStep .write ∧ Buf.bytes s.buf (len .control) = some [0x1C, 0x08]) := by decide

theorem witness_TransactionFailureEffect : let s := after .readControl 2 (busyRead (failAt 2))
    s.phase = .busy ∧ s.op = some ⟨.control, .read⟩ ∧ s.otherMaster = false ∧ s.resetIn = none ∧ s.failed = true := by
  decide

theorem witness_NextOperationBeginsAfresh : (given (failAt 1) []).Ready ∧
    ∃ t, exec .readClock (given (failAt 1) []) = .next t ∧ t.res = some .fail :=
  ⟨given_ready _ _, _, rfl, rfl⟩

theorem witness_TraceOnlyGrows : (busyRead (oks 7)).resetIn = none ∧ ∃ t, step (busyRead (oks 7)) = .next t :=
  ⟨rfl, _, rfl⟩

theorem witness_OutcomeBitOnHostPort : (given (oks 7) []).Ready ∧ (given (failAt 1) []).Ready :=
  ⟨given_ready _ _, given_ready _ _⟩

/-- Before the first request, after the last, and on either side of the request that sends a write's data. -/
theorem witness_ResetAbandonsOperation : ∀ r ∈ [(0, false), (0, true), (5, false), (3, false), (3, true)],
    let s : State := { given (oks 7) [] with resetIn := some ⟨r.1, r.2⟩ }
    s.phase = .idle ∧ s.otherMaster = false ∧ s.resetIn = some ⟨r.1, r.2⟩ ∧ (∀ j < r.1, s.answerAt j ≠ .fail) ∧
      r.1 + r.2.toNat ≤ lastStep (Instr.writeClock s1).dir ∧ r.1 + r.2.toNat ≤ lastStep Instr.readClock.dir := by decide

/-- A reset that lands together with a failing answer, at the first and at the last step. -/
theorem witness_ResetAbandonsOperation_fail : ∀ k ∈ [1, 5, 7],
    let s : State := { given (failAt k) [] with resetIn := some ⟨k, false⟩ }
    s.phase = .idle ∧ s.otherMaster = false ∧ s.resetIn = some ⟨k, false⟩ ∧ 1 ≤ k ∧
      (∀ j < k - 1, s.answerAt j ≠ .fail) ∧ s.answerAt (k - 1) = .fail ∧ k + false.toNat ≤ lastStep .read := by decide

/-- A reset just after the last request of a read, and just after a failing first request. -/
theorem witness_ResetLaterThanOperation :
    (let s : State := { given (oks 7) [] with resetIn := some ⟨7, true⟩ }
     s.phase = .idle ∧ s.otherMaster = false ∧ (∀ j < lastStep .read, s.answerAt j ≠ .fail) ∧
        lastStep .read < 7 + true.toNat) ∧
    (let s : State := { given (failAt 1) [] with resetIn := some ⟨2, false⟩ }
     s.phase = .idle ∧ s.otherMaster = false ∧ s.answerAt 0 = .fail ∧ 1 < 2 + false.toNat) := by decide

theorem witness_IdleResetTouchesNoBus : let s : State := { State.reset with bus := .unknown, resetIn := some ⟨0, false⟩ }
    s.phase = .idle ∧ s.resetIn = some ⟨0, false⟩ := ⟨rfl, rfl⟩

theorem reset_inv (as : List Answer) (cs : List Byte) : (given as cs).Inv where
  memory_canonical := rfl
  memory_reached := by intro c hc; cases hc
  trace_legal := by intro e he; cases he
  idle_outcome := fun _ => ⟨rfl, rfl, nofun, nofun⟩
  value_delivered := fun h => absurd rfl h
  busy_operation := fun h => by cases h

theorem witness_StepKeepsInvariant : (given (oks 7) [0x01]).Inv ∧ ∃ t, step (given (oks 7) [0x01]) = .next t :=
  ⟨reset_inv _ _, _, rfl⟩

theorem witness_NoUnwrittenByteRead : (given (oks 7) [0x01]).Inv := reset_inv _ _

/-- The invariant holds inside an operation too. -/
theorem witness_Inv_busy : (busyRead []).Inv where
  memory_canonical := rfl
  memory_reached := by intro c hc; cases hc
  trace_legal := by intro e he; cases he
  idle_outcome := fun h => by cases h
  value_delivered := fun h => absurd rfl h
  busy_operation := fun _ => ⟨⟨.control, .read⟩, rfl, {
    no_outcome := ⟨rfl, rfl, rfl⟩
    step_range := by decide
    bus_failed := fun h => by cases h
    bus_held := fun _ h => absurd h (by decide)
    bus_free := fun _ h => absurd h (by decide)
    image_written := fun h => by cases h
    bytes_received := fun _ _ h => absurd h (by decide)
    pointer_set := fun _ h => absurd h (by decide) }⟩

/-- The invariant holds with a value delivered: after O7's read. -/
theorem witness_Inv_delivered : ∃ t, step (given (delivering [0x1C, 0x88]) [0x07]) = .next t ∧ t.vout ≠ none ∧
    t.phase = .idle ∧ t.res = some .ok ∧ ∃ o, t.op = some o ∧ o.dir = .read :=
  ⟨_, rfl, by decide, rfl, rfl, ⟨.control, .read⟩, rfl, rfl⟩

/-- A line that assembles, and the same fields in another order. -/
theorem witness_AssemblerFieldsByName :
    assemble ⟨.WRITE_CONTROL, [(.ctrl, 0x1C), (.stat, 8)]⟩ = .ok (.writeControl ⟨0x1C, 8⟩) ∧
      [(FieldName.stat, 8), (.ctrl, 0x1C)].Perm [(.ctrl, 0x1C), (.stat, 8)] :=
  ⟨rfl, List.Perm.swap _ _ _⟩

/-- R89's example in another order: each value goes by its field's name. -/
theorem test_assemble_any_order : assemble ⟨.WRITE_CLOCK, [(.year, 24), (.minutes, 30), (.seconds, 45), (.date, 27),
    (.day, 3), (.hours, 13), (.century, 0), (.month, 6)]⟩ = .ok (.writeClock s1) := by rfl

/-- A field the command does not have (log entry 12). -/
theorem test_assemble_unknown : assemble ⟨.READ_CLOCK, [(.ctrl, 0)]⟩ = .error (.unknown .ctrl) := by rfl

end Sys2Proof.Tests
end

namespace Sys2Proof.Machine

/-!
### The constant table and the independence of operations (spec/10_state.md R31, R21)

Two runs of one command are compared side by side. While the peripheral's pointer has not been set yet the runs agree
in everything a request reads except the pointer and the bus condition (`SameInputs`); the begin fixes the bus condition
and the pointer byte the pointer, or a `fail` fixes both, and from there on the runs agree in all of it (`SameRun`).
-/

/-- Settles O8: each constant by evaluation. -/
theorem constantTable : Obligations.ConstantTable := by
  unfold Obligations.ConstantTable
  decide

/-! ### Two runs side by side -/

/-- A request whose effect depends on the peripheral's register pointer: the transfers of data (R49). -/
def Request.usesPtr : Request → Bool
  | .txn _ | .rx _ => true
  | .begin | .addr _ | .tx _ | .restart | .stop => false

theorem Request.not_data_of_usesPtr {req : Request} (h : req.usesPtr = false) :
    (∀ n, req ≠ .rx n) ∧ ∀ bs, req ≠ .txn bs := by
  constructor
  · rintro n rfl
    cases h
  · rintro bs rfl
    cases h

/-- Two runs, begun with the traces `p₁` and `p₂`, that have issued the same events since and agree in what the rest of
their operation can read, except for the register pointer. -/
structure SameInputs (p₁ p₂ : List Event) (s₁ s₂ : State) : Prop where
  no_reset₁ : s₁.resetIn = none
  no_reset₂ : s₂.resetIn = none
  step : s₁.step = s₂.step
  op : s₁.op = s₂.op
  buf : s₁.buf = s₂.buf
  mem : s₁.mem = s₂.mem
  answers : s₁.answers = s₂.answers
  draws : s₁.draws = s₂.draws
  events : ∃ es, s₁.trace = p₁ ++ es ∧ s₂.trace = p₂ ++ es

/-- Two runs that agree also in the bus condition and the register pointer. -/
structure SameRun (p₁ p₂ : List Event) (s₁ s₂ : State) : Prop extends SameInputs p₁ p₂ s₁ s₂ where
  bus : s₁.bus = s₂.bus
  ptr : s₁.ptr = s₂.ptr

/-- Two sequences that end the same way, in states that agree. -/
def SameEnd (p₁ p₂ : List Event) (r₁ r₂ : RunEnd × State) : Prop := r₁.1 = r₂.1 ∧ SameRun p₁ p₂ r₁.2 r₂.2

section
variable {p₁ p₂ : List Event} {s₁ s₂ : State} {req : Request}

theorem SameInputs.answerAt_eq (h : SameInputs p₁ p₂ s₁ s₂) (j : Nat) : s₁.answerAt j = s₂.answerAt j := by
  rw [State.answerAt, State.answerAt, h.answers, h.draws]

/-- The answer is the same: only a receive looks at the register pointer. -/
theorem SameInputs.replyTo_eq (h : SameInputs p₁ p₂ s₁ s₂) (hp : s₁.ptr = s₂.ptr ∨ req.usesPtr = false) :
    replyTo req s₁ = replyTo req s₂ := by
  have ha := h.answerAt_eq 0
  by_cases hf : s₂.answerAt 0 = .fail
  · rw [replyTo_fail hf, replyTo_fail (ha.trans hf)]
  · obtain hp | hp := hp
    · rw [replyTo_ok hf, replyTo_ok (ha ▸ hf), ha, h.mem, h.draws, hp]
    · obtain ⟨hrx, -⟩ := Request.not_data_of_usesPtr hp
      rw [replyTo_ok_plain hf hrx, replyTo_ok_plain (ha ▸ hf) hrx]

/-- One request keeps two runs alike, unless it moves data while their register pointers differ. -/
theorem SameInputs.after_issue (h : SameInputs p₁ p₂ s₁ s₂) (hp : s₁.ptr = s₂.ptr ∨ req.usesPtr = false) :
    SameInputs p₁ p₂ (issue req s₁) (issue req s₂) where
  no_reset₁ := issue_resetIn_none h.no_reset₁
  no_reset₂ := issue_resetIn_none h.no_reset₂
  step := by simp [h.step]
  op := h.op
  buf := by simp [h.buf, h.replyTo_eq hp]
  mem := by
    obtain hptr | hreq := hp
    · rw [issue_mem, issue_mem, h.mem, h.replyTo_eq (.inl hptr), hptr]
    · obtain ⟨-, htxn⟩ := Request.not_data_of_usesPtr hreq
      rw [issue_mem_plain htxn, issue_mem_plain htxn, h.mem]
  answers := by simp [h.answers]
  draws := by simp [h.draws]
  events := by
    obtain ⟨es, h₁, h₂⟩ := h.events
    exact ⟨es ++ [⟨s₂.step + 1, req, replyTo req s₂⟩], by simp [h₁, h.step, h.replyTo_eq hp], by simp [h₂]⟩

theorem SameRun.after_issue (h : SameRun p₁ p₂ s₁ s₂) : SameRun p₁ p₂ (issue req s₁) (issue req s₂) where
  toSameInputs := h.toSameInputs.after_issue (.inl h.ptr)
  bus := by simp [h.bus, h.replyTo_eq (.inl h.ptr)]
  ptr := by simp [h.ptr, h.replyTo_eq (.inl h.ptr)]

/-- A failing request leaves the bus UNKNOWN and the register pointer at any value (R32, U16). -/
theorem issue_fail_bus_ptr {s : State} (h : s.answerAt 0 = .fail) :
    (issue req s).bus = .unknown ∧ (issue req s).ptr = none := by
  simp [replyTo_fail h, busAfter, ptrAfter]

/-- A sequence in two runs: its first request fails in both and they agree, or they go on with the rest. -/
theorem SameInputs.runSeq_cons {reqs : List Request} (h : SameInputs p₁ p₂ s₁ s₂)
    (hp : s₁.ptr = s₂.ptr ∨ req.usesPtr = false)
    (hrest : s₁.answerAt 0 ≠ .fail → SameInputs p₁ p₂ (issue req s₁) (issue req s₂) →
      SameEnd p₁ p₂ (runSeq reqs (issue req s₁)) (runSeq reqs (issue req s₂))) :
    SameEnd p₁ p₂ (runSeq (req :: reqs) s₁) (runSeq (req :: reqs) s₂) := by
  have hn₁ := State.resetNow_of_none h.no_reset₁
  have hn₂ := State.resetNow_of_none h.no_reset₂
  have ho₁ := State.resetOutstanding_of_none h.no_reset₁
  have ho₂ := State.resetOutstanding_of_none h.no_reset₂
  have hi := h.after_issue hp
  have ha := h.answerAt_eq 0
  by_cases hf : s₁.answerAt 0 = .fail
  · obtain ⟨hb₁, hp₁⟩ := issue_fail_bus_ptr (req := req) hf
    obtain ⟨hb₂, hp₂⟩ := issue_fail_bus_ptr (req := req) (ha ▸ hf)
    rw [runSeq_cons_fail hn₁ ho₁ hf, runSeq_cons_fail hn₂ ho₂ (ha ▸ hf), State.resetNow_of_none hi.no_reset₁,
      State.resetNow_of_none hi.no_reset₂]
    exact ⟨rfl, { hi with bus := hb₁.trans hb₂.symm, ptr := hp₁.trans hp₂.symm }⟩
  · rw [runSeq_cons_ok hn₁ ho₁ hf, runSeq_cons_ok hn₂ ho₂ (ha ▸ hf)]
    exact hrest hf hi

/-- Two runs that agree in all a sequence reads and leaves end it alike. -/
theorem SameRun.runSeq_end (reqs : List Request) (h : SameRun p₁ p₂ s₁ s₂) :
    SameEnd p₁ p₂ (runSeq reqs s₁) (runSeq reqs s₂) := by
  induction reqs generalizing s₁ s₂ with
  | nil =>
    simp only [runSeq, State.resetNow_of_none h.no_reset₁, State.resetNow_of_none h.no_reset₂]
    exact ⟨rfl, h⟩
  | cons req reqs ih => exact h.runSeq_cons (.inl h.ptr) fun _ _ => ih h.after_issue

/-! ### Every operation fixes the bus condition and the register pointer first -/

/-- Both sequences begin by setting the peripheral's register pointer (R154, R155). -/
theorem requestsOf_sets_ptr_first (i : Instr) : ∃ rest,
    requestsOf i = .begin :: .addr (devAddr .write) :: .tx (base i.group) :: rest := by
  unfold requestsOf
  cases i.dir with
  | read => exact ⟨_, rfl⟩
  | write => exact ⟨_, rfl⟩

/-- Begin, address and pointer byte, each answered `ok`, leave the bus HELD and the pointer set, wherever they were. -/
theorem issue_set_ptr {s : State} {a b : Byte} (h₀ : s.answerAt 0 ≠ .fail) (h₁ : s.answerAt 1 ≠ .fail)
    (h₂ : s.answerAt 2 ≠ .fail) : let t := issue (.tx b) (issue (.addr a) (issue .begin s))
    t.bus = .held ∧ t.ptr = some b := by
  have r₀ : replyTo .begin s = .ok [] := replyTo_ok_plain h₀ (by simp)
  have r₁ : replyTo (.addr a) (issue .begin s) = .ok [] := replyTo_ok_plain (by rwa [answerAt_issue]) (by simp)
  have r₂ : replyTo (.tx b) (issue (.addr a) (issue .begin s)) = .ok [] :=
    replyTo_ok_plain (by rwa [answerAt_issue, answerAt_issue]) (by simp)
  simp only [issue_bus, issue_ptr, r₀, r₁, r₂, busAfter, ptrAfter, and_self]

/-- The sequence of a command ends alike in two runs whose bus conditions and register pointers may differ. -/
theorem SameInputs.runSeq_requestsOf (i : Instr) (h : SameInputs p₁ p₂ s₁ s₂) :
    SameEnd p₁ p₂ (runSeq (requestsOf i) s₁) (runSeq (requestsOf i) s₂) := by
  obtain ⟨rest, hreqs⟩ := requestsOf_sets_ptr_first i
  rw [hreqs]
  refine h.runSeq_cons (.inr rfl) fun ok₀ hbegin => hbegin.runSeq_cons (.inr rfl) fun ok₁ haddr =>
    haddr.runSeq_cons (.inr rfl) fun ok₂ htx => SameRun.runSeq_end rest ?_
  simp only [answerAt_issue] at ok₁ ok₂
  obtain ⟨hb₁, hp₁⟩ := issue_set_ptr (a := devAddr .write) (b := base i.group) ok₀ ok₁ ok₂
  rw [h.answerAt_eq] at ok₀ ok₁ ok₂
  obtain ⟨hb₂, hp₂⟩ := issue_set_ptr (a := devAddr .write) (b := base i.group) ok₀ ok₁ ok₂
  exact { htx with bus := hb₁.trans hb₂.symm, ptr := hp₁.trans hp₂.symm }

/-! ### Acceptance and completion -/

theorem State.Ready.no_reset {s : State} (h : s.Ready) : s.resetIn = none := h.2.2

theorem SameInputs.of_acceptCommand (i : Instr) (h₁ : s₁.Ready) (h₂ : s₂.Ready) (ha : s₁.answers = s₂.answers)
    (hd : s₁.draws = s₂.draws) (hm : s₁.mem = s₂.mem) :
    SameInputs s₁.trace s₂.trace (acceptCommand i s₁) (acceptCommand i s₂) where
  no_reset₁ := h₁.no_reset
  no_reset₂ := h₂.no_reset
  step := rfl
  op := rfl
  buf := rfl
  mem := hm
  answers := ha
  draws := hd
  events := ⟨[], by simp [acceptCommand], by simp [acceptCommand]⟩

theorem SameInputs.delivered_eq (h : SameInputs p₁ p₂ s₁ s₂) (o : Op) : delivered o s₁ = delivered o s₂ := by
  rw [delivered, delivered, h.buf]

theorem SameInputs.forgetIfSent_eq (h : SameInputs p₁ p₂ s₁ s₂) : forgetIfSent s₁ = forgetIfSent s₂ := by
  rw [forgetIfSent, forgetIfSent, h.op, h.step, h.mem]

/-- Sequences that end alike, with no reset, deliver the same outputs and leave the environment the same. -/
theorem SameEnd.finish_outputs {r₁ r₂ : RunEnd × State} (h : SameEnd p₁ p₂ r₁ r₂) (hr : r₁.1 ≠ .abandoned) (o : Op) :
    ∃ es, (finish o r₁).trace = p₁ ++ es ∧ (finish o r₂).trace = p₂ ++ es ∧ (finish o r₁).res = (finish o r₂).res ∧
      (finish o r₁).vout = (finish o r₂).vout ∧ (finish o r₁).bus = (finish o r₂).bus ∧
      (finish o r₁).mem = (finish o r₂).mem ∧ (finish o r₁).ptr = (finish o r₂).ptr ∧
      (finish o r₁).answers = (finish o r₂).answers := by
  obtain ⟨hend, hs⟩ := h
  obtain ⟨es, h₁, h₂⟩ := hs.events
  refine ⟨es, ?_⟩
  unfold finish
  rw [← hend]
  cases hc : r₁.1 with
  | done => exact ⟨h₁, h₂, rfl, hs.delivered_eq o, hs.bus, hs.mem, hs.ptr, hs.answers⟩
  | failed => exact ⟨h₁, h₂, rfl, rfl, hs.bus, hs.forgetIfSent_eq, hs.ptr, hs.answers⟩
  | abandoned => exact absurd hc hr

end

/-- Settles O39: both runs accept alike, their sequences end alike although the earlier operations may have left other
bus conditions and register pointers, and so their ends are alike. -/
theorem noStateCarriedOver : Obligations.NoStateCarriedOver := by
  unfold Obligations.NoStateCarriedOver
  intro i s₁ s₂ h₁ h₂ ha hd hm
  have haccept := SameInputs.of_acceptCommand i h₁ h₂ ha hd hm
  obtain ⟨es, houtputs⟩ := (haccept.runSeq_requestsOf i).finish_outputs
    (runSeq_not_abandoned _ _ haccept.no_reset₁) ⟨i.group, i.dir⟩
  exact ⟨_, _, es, exec_of_not_taken i s₁ h₁.busTaken, exec_of_not_taken i s₂ h₂.busTaken, houtputs⟩

end Sys2Proof.Machine

namespace Sys2Proof.Machine

/-!
### The bus frames of the successful operations (spec/30_encoding.md R85, R86)

A successful operation appends one fixed list of events; each frame is the wire elements of that list.
-/

/-- The events of a read of group `g` that receives the bytes `d`, every answer `ok` (R154). -/
def readEvents (g : Group) (d : List Byte) : List Event :=
  [⟨1, .begin, .ok []⟩, ⟨2, .addr 0xD0, .ok []⟩, ⟨3, .tx (base g), .ok []⟩, ⟨4, .restart, .ok []⟩,
    ⟨5, .addr 0xD1, .ok []⟩, ⟨6, .rx (len g), .ok d⟩, ⟨7, .stop, .ok []⟩]

/-- The events of a write of the bytes `image` to group `g`, every answer `ok` (R155). -/
def writeEvents (g : Group) (image : List Byte) : List Event :=
  [⟨1, .begin, .ok []⟩, ⟨2, .addr 0xD0, .ok []⟩, ⟨3, .tx (base g), .ok []⟩, ⟨4, .txn image, .ok []⟩,
    ⟨5, .stop, .ok []⟩]

theorem busFrame_readEvents (g : Group) (d : List Byte) :
    busFrame (readEvents g d) =
      some ([.start, .byte 0xD0, .byte (base g), .restart, .byte 0xD1] ++ d.map .byte ++ [.stop]) := by
  simp [busFrame, readEvents, Event.wire, allPresent]

theorem busFrame_writeEvents (g : Group) (image : List Byte) :
    busFrame (writeEvents g image) =
      some ([.start, .byte 0xD0, .byte (base g)] ++ image.map .byte ++ [.stop]) := by
  simp [busFrame, writeEvents, Event.wire, allPresent]

theorem requestsOf_of_read {i : Instr} (hd : i.dir = .read) : requestsOf i = readSeq (base i.group) (len i.group) := by
  simp only [requestsOf, hd]

theorem requestsOf_of_write {i : Instr} (hd : i.dir = .write) : requestsOf i = writeSeq (base i.group) (imageOf i) := by
  simp only [requestsOf, hd]

theorem imageOf_of_read {i : Instr} (hd : i.dir = .read) : imageOf i = [] := by
  cases i with
  | readClock | readAlarm1 | readAlarm2 | readControl => rfl
  | writeClock | writeAlarm1 | writeAlarm2 | writeControl => cases hd

theorem State.rxBytes_length (s : State) (g : Group) : (s.rxBytes g).length = len g := received_length ..

/-- A read all of whose answers are `ok` appends the events of its seven requests, the received bytes among them. -/
theorem exec_read_trace {i : Instr} {s : State} (hd : i.dir = .read) (hs : s.Ready) (ha : s.AnswersOk 7) :
    ∃ t, exec i s = .next t ∧ t.trace = s.trace ++ readEvents i.group (s.rxBytes i.group) := by
  refine ⟨_, exec_ok i s hs (by rwa [hd]), ?_⟩
  obtain ⟨htrace, -⟩ := readSeq_done i.group s ha
  rw [completeOk_trace, requestsOf_of_read hd, acceptCommand, imageOf_of_read hd, hd, htrace, readEvents]

/-- A write all of whose answers are `ok` appends the events of its five requests, its image among them. -/
theorem exec_write_trace {i : Instr} {s : State} (hd : i.dir = .write) (hs : s.Ready) (ha : s.AnswersOk 5) :
    ∃ t, exec i s = .next t ∧ t.trace = s.trace ++ writeEvents i.group (imageOf i) := by
  refine ⟨_, exec_ok i s hs (by rwa [hd]), ?_⟩
  obtain ⟨htrace, -⟩ := writeSeq_done i.group (imageOf i) s ha
  rw [completeOk_trace, requestsOf_of_write hd, acceptCommand, hd, htrace, writeEvents]

/-- Settles O33: the wire elements of the events a successful read appends. -/
theorem readFrameOnBus : Obligations.ReadFrameOnBus := by
  unfold Obligations.ReadFrameOnBus
  intro i s hd hs ha
  obtain ⟨t, hexec, htrace⟩ := exec_read_trace hd hs ha
  exact ⟨t, _, _, hexec, htrace, s.rxBytes_length i.group, rfl, busFrame_readEvents _ _⟩

/-- Settles O34: the wire elements of the events a successful write appends. -/
theorem writeFrameOnBus : Obligations.WriteFrameOnBus := by
  unfold Obligations.WriteFrameOnBus
  intro i s hd hs ha
  obtain ⟨t, hexec, htrace⟩ := exec_write_trace hd hs ha
  exact ⟨t, _, hexec, htrace, imageOf_length i hd, busFrame_writeEvents _ _⟩

end Sys2Proof.Machine

namespace Sys2Proof.Machine

/-!
### The BCD field codec in whole numbers (spec/40_bcd_codec.md R101 to R105)

Masking is reduction modulo a power of two, so a plain field is arithmetic on its byte. A BCD byte is a plain field at
bit 4 over a four-bit ones digit, and the two do not touch (R109).
-/

/-- R103: masking keeps the remainder modulo `2^w`. -/
theorem and_mask_toNat (b : Byte) (w : Nat) : (b &&& mask w).toNat = b.toNat % 2 ^ w := by
  calc (b &&& mask w).toNat
      = b.toNat &&& ((2 ^ w - 1) &&& (2 ^ 8 - 1)) := by
        rw [mask, BitVec.toNat_and, BitVec.toNat_ofNat, Nat.and_two_pow_sub_one_eq_mod _ 8]
    _ = b.toNat % 2 ^ 8 % 2 ^ w := by
        rw [← Nat.and_assoc, Nat.and_right_comm, Nat.and_two_pow_sub_one_eq_mod, Nat.and_two_pow_sub_one_eq_mod]
    _ = b.toNat % 2 ^ w := by rw [BitVec.toNat_mod_cancel]

theorem unpackPlain_toNat (b : Byte) (lo w : Nat) : (unpackPlain b lo w).toNat = b.toNat / 2 ^ lo % 2 ^ w := by
  rw [unpackPlain, and_mask_toNat, BitVec.toNat_ushiftRight, Nat.shiftRight_eq_div_pow]

/-- A field inside the byte loses no bit to the shift. -/
theorem packPlain_toNat (v : Byte) {lo w : Nat} (h : lo + w ≤ 8) :
    (packPlain v lo w).toNat = v.toNat % 2 ^ w * 2 ^ lo := by
  have hfit : v.toNat % 2 ^ w * 2 ^ lo < 2 ^ 8 := calc
    v.toNat % 2 ^ w * 2 ^ lo < 2 ^ w * 2 ^ lo :=
      Nat.mul_lt_mul_of_pos_right (Nat.mod_lt _ (Nat.two_pow_pos w)) (Nat.two_pow_pos lo)
    _ = 2 ^ (lo + w) := by rw [← Nat.pow_add, Nat.add_comm]
    _ ≤ 2 ^ 8 := Nat.pow_le_pow_right (by decide) h
  rw [packPlain, BitVec.toNat_shiftLeft, and_mask_toNat, Nat.shiftLeft_eq, Nat.mod_eq_of_lt hfit]

/-- The sum of two digits of at most 15 does not wrap: it is at most 165. -/
theorem decodeBcdField_toNat {tens ones : Byte} (ht : tens.toNat ≤ 15) (ho : ones.toNat ≤ 15) :
    (decodeBcdField tens ones).toNat = tens.toNat * 10 + ones.toNat := by
  have hfit : tens.toNat * 10 < 2 ^ 8 := by omega
  have hmul : (tens * 10).toNat = tens.toNat * 10 := BitVec.toNat_mul_of_lt hfit
  rw [decodeBcdField, BitVec.toNat_add_of_lt (by omega), hmul]

theorem encodeBcdField_toNat (v : Byte) :
    (encodeBcdField v).1.toNat = v.toNat / 10 ∧ (encodeBcdField v).2.toNat = v.toNat % 10 :=
  ⟨BitVec.toNat_udiv, BitVec.toNat_umod⟩

/-- The tens digit is a plain field at bit 4 and the ones digit stays below it, so their `or` is their sum. -/
theorem packBcd_toNat (v : Byte) {tw : Nat} (h : tw ≤ 4) : (packBcd v tw).toNat = bcdImage v tw := by
  obtain ⟨htens, hones⟩ := encodeBcdField_toNat v
  have hhigh : (packPlain (encodeBcdField v).1 4 tw).toNat = (v.toNat / 10 % 2 ^ tw) <<< 4 := by
    rw [packPlain_toNat _ (by omega), htens, Nat.shiftLeft_eq]
  have hlow : ((encodeBcdField v).2 &&& mask 4).toNat = v.toNat % 10 := by
    rw [and_mask_toNat, hones]
    omega
  calc (packBcd v tw).toNat
      = (packPlain (encodeBcdField v).1 4 tw).toNat ||| ((encodeBcdField v).2 &&& mask 4).toNat := BitVec.toNat_or ..
    _ = (v.toNat / 10 % 2 ^ tw) <<< 4 + v.toNat % 10 := by
        rw [hhigh, hlow, Nat.shiftLeft_add_eq_or_of_lt (by omega)]
    _ = bcdImage v tw := by rw [Nat.shiftLeft_eq, bcdImage]

/-- Both digits are fields of at most four bits, so R101's sum does not wrap. -/
theorem unpackBcd_toNat (b : Byte) {tw : Nat} (h : tw ≤ 4) : (unpackBcd b tw).toNat = bcdValue b tw := by
  have htens : (unpackPlain b 4 tw).toNat = b.toNat / 16 % 2 ^ tw := unpackPlain_toNat b 4 tw
  have hones : (b &&& mask 4).toNat = b.toNat % 16 := and_mask_toNat b 4
  have hdigit : b.toNat / 16 % 2 ^ tw < 2 ^ 4 :=
    (Nat.mod_lt _ (Nat.two_pow_pos tw)).trans_le (Nat.pow_le_pow_right (by decide) h)
  calc (unpackBcd b tw).toNat
      = (decodeBcdField (unpackPlain b 4 tw) (b &&& mask 4)).toNat := rfl
    _ = (unpackPlain b 4 tw).toNat * 10 + (b &&& mask 4).toNat := decodeBcdField_toNat (by omega) (by omega)
    _ = bcdValue b tw := by rw [htens, hones, bcdValue]

/-- Settles O12: masking is reduction modulo a power of two, and a field inside the byte loses no bit to its shift. -/
theorem packUnpackPlainArithmetic : Obligations.PackUnpackPlainArithmetic := by
  unfold Obligations.PackUnpackPlainArithmetic
  exact fun v lo w h => ⟨packPlain_toNat v h, unpackPlain_toNat v lo w⟩

/-- Settles O9: the largest sum, 165, fits in a byte. -/
theorem decodeBcdFieldArithmetic : Obligations.DecodeBcdFieldArithmetic := by
  unfold Obligations.DecodeBcdFieldArithmetic
  exact fun _ _ ht ho => decodeBcdField_toNat ht ho

/-- Settles O10: the byte's division and remainder are those of its whole number. -/
theorem encodeBcdFieldArithmetic : Obligations.EncodeBcdFieldArithmetic := by
  unfold Obligations.EncodeBcdFieldArithmetic
  exact encodeBcdField_toNat

/-- Settles O11: the two lanes of a BCD byte as whole numbers. -/
theorem packUnpackBcdArithmetic : Obligations.PackUnpackBcdArithmetic := by
  unfold Obligations.PackUnpackBcdArithmetic
  exact fun v _ _ h => ⟨packBcd_toNat v h, unpackBcd_toNat v h⟩

end Sys2Proof.Machine

namespace Sys2Proof.Machine

/-!
### The synthesised alarm-2 fields and the control codec (spec/41_register_codec.md R125 to R127, R129)

One lemma per field that takes no BCD conversion; callers cite these instead of unfolding the codec.
-/

/-- R129: flag `m1` has no bit in the alarm-2 image. -/
@[simp] theorem decodeAlarm2_m1 (p : Vector Byte 3) : (decodeAlarm2 p).m1 = 0 := rfl

/-- R129: alarm 2 has no seconds byte. -/
@[simp] theorem decodeAlarm2_seconds (p : Vector Byte 3) : (decodeAlarm2 p).seconds = 0 := rfl

@[simp] theorem encodeControl_toList (c : ControlValue) : (encodeControl c).toList = [c.ctrl, c.stat] := rfl

@[simp] theorem decodeControl_ctrl (p : Vector Byte 2) : (decodeControl p).ctrl = p[0] := rfl

@[simp] theorem decodeControl_stat (p : Vector Byte 2) : (decodeControl p).stat = p[1] := rfl

/-- Settles O20: neither field is read from the image. -/
theorem alarm2Synthesised : Obligations.Alarm2Synthesised := by
  unfold Obligations.Alarm2Synthesised
  exact fun p => ⟨decodeAlarm2_m1 p, decodeAlarm2_seconds p⟩

/-- Settles O21: each direction byte by byte. -/
theorem controlCopiedByteForByte : Obligations.ControlCopiedByteForByte := by
  unfold Obligations.ControlCopiedByteForByte
  exact ⟨encodeControl_toList, fun p => ⟨decodeControl_ctrl p, decodeControl_stat p⟩⟩

end Sys2Proof.Machine

namespace Sys2Proof.Machine

/-!
### The first failing step (spec/42_transactions.md R153, R156, R163)

By `exec_fail` the operation is the first `k` requests of its sequence, then the transaction failure, which leaves
trace, step index, answers and bus condition as those requests did.
-/

theorem lastStep_le_seven (d : Dir) : lastStep d ≤ 7 := by cases d <;> decide

/-- Of the answers up to the first failing step only that step's own is `fail`. -/
theorem State.FailsAt.answerAt_fail_iff {s : State} {k j : Nat} (h : s.FailsAt k) (hj : j < k) :
    s.answerAt j = .fail ↔ j + 1 = k := by
  obtain ⟨-, hok, hfail⟩ := h
  constructor
  · intro hf
    by_contra hne
    exact hok j (by omega) hf
  · rintro rfl
    exact hfail

theorem requestsOf_take_length (i : Instr) {k : Nat} (hk : k ≤ lastStep i.dir) : ((requestsOf i).take k).length = k :=
  List.length_take_of_le (by rwa [requests_length])

/-- The events of an operation's first `k` requests, numbered 1 to `k` (R24, R159). -/
theorem issueAll_take_events (i : Instr) (s : State) {k : Nat} (hk : k ≤ lastStep i.dir) :
    let t := issueAll ((requestsOf i).take k) (acceptCommand i s)
    t.step.val = k ∧ ∃ es, t.trace = s.trace ++ es ∧ es.length = k ∧ es.map Event.req = (requestsOf i).take k ∧
      (es.map fun e => e.k.val) = List.range' 1 k ∧
      ∀ j (h : j < es.length), es[j].reply = .fail ↔ s.answerAt j = .fail := by
  have hstep : (acceptCommand i s).step.val = 0 := rfl
  have hlen := requestsOf_take_length i hk
  have hrange : (acceptCommand i s).step.val + ((requestsOf i).take k).length ≤ 7 := by
    rw [hstep, hlen, Nat.zero_add]
    exact hk.trans (lastStep_le_seven _)
  have hev := issueAll_events _ _ hrange
  rw [hstep, hlen, Nat.zero_add, Nat.zero_add] at hev
  exact hev

/-- Settles O31: the requests up to the first failing step leave one event each, and the failure adds none. -/
theorem firstFailEndsOperation : Obligations.FirstFailEndsOperation := by
  unfold Obligations.FirstFailEndsOperation
  intro i s k hs hk hfails
  obtain ⟨hstep, es, htrace, hlength, hreq, hnumbers, hreply⟩ := issueAll_take_events i s hk
  have hanswers := issueAll_answers ((requestsOf i).take k) (acceptCommand i s)
  rw [requestsOf_take_length i hk] at hanswers
  have ⟨hpos, _, hfail⟩ := hfails
  obtain ⟨hbus, -⟩ := issueAll_take_fail (requestsOf i) (acceptCommand i s) k hpos (by rwa [requests_length]) hfail
  have hlast : ∀ j (h : j < es.length), es[j].reply = .fail ↔ j + 1 = k := fun j h =>
    (hreply j h).trans (hfails.answerAt_fail_iff (hlength ▸ h))
  exact ⟨_, es, exec_fail i s k hs hk hfails, htrace, hlength, hreq, hnumbers, hlast, hanswers, hstep,
    transactionFailure_res _, transactionFailure_vout _, transactionFailure_phase _, hbus⟩

end Sys2Proof.Machine

namespace Sys2Proof.Machine

/-!
### The operation after a failed one (spec/60_exceptions.md R205, R206)

A command of a ready block leaves it ready again, failed or not, and a command of a ready block begins with step 1,
begin: nothing the failure left behind, the bus condition least of all, is looked at.
-/

/-- Every end of an operation leaves the block IDLE (R158, R231). -/
@[simp] theorem finish_phase (o : Op) (r : RunEnd × State) : (finish o r).phase = .idle := by
  unfold finish
  split <;> rfl

theorem exec_keeps_ready {i : Instr} {s t : State} (hs : s.Ready) (h : exec i s = .next t) : t.Ready := by
  obtain ⟨-, hmaster, hreset⟩ := hs
  obtain ⟨-, rfl⟩ := exec_next h
  obtain ⟨-, -, -, hrunMaster, hrunReset⟩ := runSeq_frame (requestsOf i) (acceptCommand i s)
  obtain ⟨-, hendMaster, hendReset⟩ := finish_frame ⟨i.group, i.dir⟩ (runSeq (requestsOf i) (acceptCommand i s))
  exact ⟨finish_phase .., (hendMaster.trans hrunMaster).trans hmaster, hendReset (hrunReset hreset)⟩

/-- The first new event of a sequence is that of its first request (R159). -/
theorem issueAll_cons_trace (req : Request) (reqs : List Request) (s : State) :
    ∃ es, (issueAll (req :: reqs) s).trace = s.trace ++ ⟨s.step + 1, req, replyTo req s⟩ :: es := by
  obtain ⟨es, htrace, -⟩ := issueAll_trace reqs (issue req s)
  exact ⟨es, by rw [issueAll_cons, htrace, issue_trace, List.append_assoc, List.singleton_append]⟩

/-- A command of a ready block leaves step 1, begin, as its first new event, whether its answers are all `ok` or one
fails. -/
theorem exec_begins_at_step_one (i : Instr) {s : State} (hs : s.Ready) :
    ∃ (u : State) (reply : Reply) (es : List Event), exec i s = .next u ∧
      u.trace = s.trace ++ ⟨1, .begin, reply⟩ :: es := by
  obtain ⟨rest, hreqs⟩ := requestsOf_sets_ptr_first i
  rcases answersOk_or_failsAt s (lastStep i.dir) with hok | ⟨k, hk, hfails⟩
  · have hexec := exec_ok i s hs hok
    rw [hreqs] at hexec
    obtain ⟨es, htrace⟩ := issueAll_cons_trace .begin _ (acceptCommand i s)
    exact ⟨_, _, es, hexec, htrace⟩
  · have hexec := exec_fail i s k hs hk hfails
    obtain ⟨k, rfl⟩ := Nat.exists_eq_add_of_le' hfails.1
    rw [hreqs, List.take_succ_cons] at hexec
    obtain ⟨es, htrace⟩ := issueAll_cons_trace .begin _ (acceptCommand i s)
    exact ⟨_, _, es, hexec, htrace⟩

/-- Settles O44: the failed command leaves the block ready, and a ready block's next command begins at step 1. -/
theorem nextOperationBeginsAfresh : Obligations.NextOperationBeginsAfresh := by
  unfold Obligations.NextOperationBeginsAfresh
  intro i j s t hs hexec _
  have ht : t.Ready := exec_keeps_ready hs hexec
  obtain ⟨u, reply, es, hnext, htrace⟩ := exec_begins_at_step_one j ht
  exact ⟨u, reply, es, ht.1, hnext, htrace⟩

end Sys2Proof.Machine

namespace Sys2Proof.Machine

/-!
### The command word and its payload, read back (spec/30_encoding.md R70 to R74, R83, R88, R95)

The three fields of a command word are read back from it, and so is each payload; the decoder's round trip puts the two
together. A word of 8 or more has a reserved bit set.
-/

@[simp] theorem cmdRsv_cmdWord (g : Group) (d : Dir) : cmdRsv (cmdWord g d) = 0 := by
  cases g <;> cases d <;> rfl

@[simp] theorem groupOfCode_cmdWord (g : Group) (d : Dir) : groupOfCode (cmdGrp (cmdWord g d)) = g := by
  cases g <;> cases d <;> rfl

@[simp] theorem dirOfCode_cmdWord (g : Group) (d : Dir) : dirOfCode (cmdDir (cmdWord g d)) = d := by
  cases g <;> cases d <;> rfl

/-- The decoder reads group and direction off a command word (R74). -/
theorem decode_cmdWord (g : Group) (d : Dir) (rest : List Byte) :
    decode (cmdWord g d :: rest) = decodeOp g d rest := by
  simp [decode]

@[simp] theorem flagOfByte_byteOfFlag (f : Bit) : flagOfByte (byteOfFlag f) = f := by
  revert f
  decide

/-- Only bit 0 of a flag's byte is looked at (R95). -/
theorem flagOfByte_toNat (b : Byte) : (flagOfByte b).toNat = b.toNat % 2 := by
  simp [flagOfByte, BitVec.extractLsb'_toNat]

theorem readClockPayload_clockPayload (v : ClockValue) (rest : List Byte) :
    readClockPayload (clockPayload v ++ rest) = some (v, rest) := by
  simp [clockPayload, readClockPayload]

theorem readAlarmPayload_alarmPayload (a : AlarmValue) (rest : List Byte) :
    readAlarmPayload (alarmPayload a ++ rest) = some (a, rest) := by
  simp [alarmPayload, readAlarmPayload]

theorem readControlPayload_controlPayload (c : ControlValue) (rest : List Byte) :
    readControlPayload (controlPayload c ++ rest) = some (c, rest) := rfl

/-- A command's payload is read back as that command (R88, R95). -/
theorem decodeOp_payload (i : Instr) (rest : List Byte) :
    decodeOp i.group i.dir (i.payload ++ rest) = .ok (i, rest) := by
  cases i with
  | readClock | readAlarm1 | readAlarm2 | readControl => rfl
  | writeClock v => exact congrArg (withPayload .writeClock) (readClockPayload_clockPayload v rest)
  | writeAlarm1 a => exact congrArg (withPayload .writeAlarm1) (readAlarmPayload_alarmPayload a rest)
  | writeAlarm2 a => exact congrArg (withPayload .writeAlarm2) (readAlarmPayload_alarmPayload a rest)
  | writeControl c => exact congrArg (withPayload .writeControl) (readControlPayload_controlPayload c rest)

theorem decode_encode (i : Instr) (rest : List Byte) : decode (encode i ++ rest) = .ok (i, rest) := by
  rw [encode, List.cons_append, decode_cmdWord, decodeOp_payload]

/-- Settles O3: the word is read back as group and direction, and these read the payload back. -/
theorem decodeEncodeRoundTrip : Obligations.DecodeEncodeRoundTrip := by
  unfold Obligations.DecodeEncodeRoundTrip
  exact fun i rest _ => decode_encode i rest

/-- Settles O1: each word is the encoding of its command, a write's with all fields 0. -/
theorem commandWordsDecode : Obligations.CommandWordsDecode := by
  unfold Obligations.CommandWordsDecode
  exact ⟨decode_encode .readClock [], decode_encode .readAlarm1 [], decode_encode .readAlarm2 [],
    decode_encode .readControl [], decode_encode (.writeClock ⟨0, 0, 0, 0, 0, 0, 0, 0⟩) [],
    decode_encode (.writeAlarm1 ⟨0, 0, 0, 0, 0, 0, 0, 0⟩) [], decode_encode (.writeAlarm2 ⟨0, 0, 0, 0, 0, 0, 0, 0⟩) [],
    decode_encode (.writeControl ⟨0, 0⟩) []⟩

/-- Settles O2: a payload of eight bytes is read byte by byte, a flag as its byte's remainder. -/
theorem payloadFlagBitsIgnored : Obligations.PayloadFlagBitsIgnored := by
  unfold Obligations.PayloadFlagBitsIgnored
  constructor
  · intro b0 b1 b2 b3 b4 b5 b6 b7 rest
    exact ⟨_, decode_cmdWord .clock .write _, rfl, rfl, rfl, rfl, rfl, flagOfByte_toNat b5, rfl, rfl⟩
  · intro b0 b1 b2 b3 b4 b5 b6 b7 rest
    exact ⟨_, decode_cmdWord .alarm1 .write _, decode_cmdWord .alarm2 .write _, flagOfByte_toNat b0, rfl,
      flagOfByte_toNat b2, rfl, flagOfByte_toNat b4, rfl, flagOfByte_toNat b6, rfl⟩

/-! ### A step of an idle block (R73, R190, R232) -/

/-- A word has its reserved bits 0 exactly when it is one of the eight command words (R70, R73). -/
theorem cmdRsv_eq_zero_iff (cmd : Byte) : cmdRsv cmd = 0 ↔ cmd.toNat < 8 := by
  have h : (cmdRsv cmd).toNat = cmd.toNat / 8 := by
    simp [cmdRsv, BitVec.extractLsb'_toNat, Nat.shiftRight_eq_div_pow]
    omega
  rw [← BitVec.toNat_inj, h]
  simp [Nat.div_eq_zero_iff]

theorem decode_reserved {cmd : Byte} (h : 8 ≤ cmd.toNat) (rest : List Byte) :
    decode (cmd :: rest) = .error (.reserved cmd) := by
  have hrsv : ¬ cmdRsv cmd = 0 := by
    rw [cmdRsv_eq_zero_iff]
    omega
  rw [decode, if_neg hrsv]

theorem withPayload_ne_reserved {α : Type} (mk : α → Instr) (r : Option (α × List Byte)) (cmd : Byte) :
    withPayload mk r ≠ .error (.reserved cmd) := by
  cases r <;> simp [withPayload]

theorem decodeOp_ne_reserved (g : Group) (d : Dir) (rest : List Byte) (cmd : Byte) :
    decodeOp g d rest ≠ .error (.reserved cmd) := by
  cases d with
  | read => cases g <;> simp [decodeOp]
  | write => cases g <;> exact withPayload_ne_reserved _ _ cmd

/-- Only a word of 8 or more is reserved (R73). -/
theorem decode_eq_reserved {bytes : List Byte} {cmd : Byte} (h : decode bytes = .error (.reserved cmd)) :
    8 ≤ cmd.toNat ∧ ∃ rest, bytes = cmd :: rest := by
  cases bytes with
  | nil => cases h
  | cons c rest =>
    by_cases hrsv : cmdRsv c = 0
    · rw [decode, if_pos hrsv] at h
      exact absurd h (decodeOp_ne_reserved _ _ rest cmd)
    · rw [decode, if_neg hrsv] at h
      cases h
      rw [cmdRsv_eq_zero_iff] at hrsv
      exact ⟨by omega, rest, rfl⟩

section
variable {s : State} (hidle : s.phase = .idle)
include hidle

theorem step_of_idle_reset (hreset : s.resetNow = true) : step s = .next (resetBlock s) := by
  simp [step, hidle, fetch, hreset]

variable (hreset : s.resetNow = false)
include hreset

theorem step_of_idle_command {i : Instr} {rest : List Byte} (h : decode s.cmdIn = .ok (i, rest)) :
    step s = exec i { s with cmdIn := rest } := by
  simp [step, hidle, fetch, hreset, h]

theorem step_of_idle_reserved {cmd : Byte} (h : decode s.cmdIn = .error (.reserved cmd)) :
    step s = .refused (.reservedCommand cmd) := by
  simp [step, hidle, fetch, hreset, h]

theorem step_of_idle_waiting (h : decode s.cmdIn = .error .empty ∨ decode s.cmdIn = .error .incomplete) :
    step s = .next s := by
  obtain h | h := h <;> simp [step, hidle, fetch, hreset, h]

end

/-- What a step of an idle block can do: a reset lands, it runs a command, it waits, or it refuses a reserved word
(R190). -/
theorem step_of_idle_cases {s : State} (hidle : s.phase = .idle) :
    (s.resetNow = true ∧ step s = .next (resetBlock s)) ∨
      (∃ i rest, decode s.cmdIn = .ok (i, rest) ∧ step s = exec i { s with cmdIn := rest }) ∨ step s = .next s ∨
      ∃ cmd, decode s.cmdIn = .error (.reserved cmd) ∧ step s = .refused (.reservedCommand cmd) := by
  cases hreset : s.resetNow with
  | true => exact .inl ⟨rfl, step_of_idle_reset hidle hreset⟩
  | false =>
    rcases hd : decode s.cmdIn with (_ | _ | cmd) | ⟨i, rest⟩
    · exact .inr (.inr (.inl (step_of_idle_waiting hidle hreset (.inl hd))))
    · exact .inr (.inr (.inl (step_of_idle_waiting hidle hreset (.inr hd))))
    · exact .inr (.inr (.inr ⟨cmd, rfl, step_of_idle_reserved hidle hreset hd⟩))
    · exact .inr (.inl ⟨i, rest, rfl, step_of_idle_command hidle hreset hd⟩)

/-- Settles O5: the command row of an idle step. -/
theorem stepRunsDecodedCommand : Obligations.StepRunsDecodedCommand := by
  unfold Obligations.StepRunsDecodedCommand
  exact fun s i rest hidle hreset _ hd => step_of_idle_command hidle hreset hd

/-- No whole operation is refused: it ends in a next state or faults (R180). -/
theorem exec_ne_refused (i : Instr) (s : State) (r : Refusal) : exec i s ≠ .refused r := by
  cases h : s.busTaken with
  | true => simp [exec_of_taken i s h]
  | false => simp [exec_of_not_taken i s h]

/-- The sequencer refuses nothing (R158). -/
theorem transition_ne_refused (s : State) (r : Refusal) : transition s ≠ .refused r := by
  unfold transition transitionOf completeStep
  repeat' split
  all_goals simp

/-- Settles O4: the decoder calls exactly the words from 8 on reserved, and neither a command nor the sequencer
refuses. -/
theorem reservedWordsRefused : Obligations.ReservedWordsRefused := by
  unfold Obligations.ReservedWordsRefused
  constructor
  · intro s cmd rest hidle hreset hin hcmd
    exact step_of_idle_reserved hidle hreset (hin ▸ decode_reserved hcmd rest)
  · intro s r h
    cases hp : s.phase with
    | busy => exact absurd h (by simpa [step, hp] using transition_ne_refused s r)
    | idle =>
      obtain ⟨-, hs⟩ | ⟨i, rest, -, hs⟩ | hs | ⟨cmd, hd, hs⟩ := step_of_idle_cases hp <;> rw [hs] at h
      · cases h
      · exact absurd h (exec_ne_refused i _ r)
      · cases h
      · obtain ⟨hcmd, rest, hin⟩ := decode_eq_reserved hd
        cases h
        exact ⟨cmd, rest, rfl, hcmd, rfl, hin⟩

/-! ### A payload that is not all there (R88, log entry 13) -/

theorem readClockPayload_short {bs : List Byte} (h : bs.length < 8) : readClockPayload bs = none := by
  unfold readClockPayload
  split
  · simp at h
    omega
  · rfl

theorem readAlarmPayload_short {bs : List Byte} (h : bs.length < 8) : readAlarmPayload bs = none := by
  unfold readAlarmPayload
  split
  · simp at h
    omega
  · rfl

theorem readControlPayload_short {bs : List Byte} (h : bs.length < 2) : readControlPayload bs = none := by
  unfold readControlPayload
  split
  · simp at h
  · rfl

/-- A write's word with fewer payload bytes behind it than it announces is no command yet. -/
theorem decode_write_short (g : Group) {rest : List Byte} (h : rest.length < payloadBytes g .write) :
    decode (cmdWord g .write :: rest) = .error .incomplete := by
  rw [decode_cmdWord]
  cases g with
  | clock => rw [decodeOp, readClockPayload_short h, withPayload]
  | alarm1 => rw [decodeOp, readAlarmPayload_short h, withPayload]
  | alarm2 => rw [decodeOp, readAlarmPayload_short h, withPayload]
  | control => rw [decodeOp, readControlPayload_short h, withPayload]

/-- Settles O6: neither an empty stream nor a write's word with a short payload decodes to a command. -/
theorem waitsWithoutCommand : Obligations.WaitsWithoutCommand := by
  unfold Obligations.WaitsWithoutCommand
  intro s hidle hreset
  refine ⟨fun hin => step_of_idle_waiting hidle hreset (.inl (by rw [hin]; rfl)), fun cmd rest hin hshort => ?_⟩
  refine step_of_idle_waiting hidle hreset (.inr ?_)
  rw [hin]
  obtain ⟨rfl | rfl | rfl, hlen⟩ | ⟨rfl, hlen⟩ := hshort
  · exact decode_write_short .clock hlen
  · exact decode_write_short .alarm1 hlen
  · exact decode_write_short .alarm2 hlen
  · exact decode_write_short .control hlen

end Sys2Proof.Machine

namespace Sys2Proof.Machine

/-!
### The sequencer's transitions (spec/42_transactions.md R158; spec/60_exceptions.md R205)

One equation per row of the step relation, and the inversion lemma that says all a transition can do.
-/

/-- Operation `o` is in progress and no other master uses the bus. -/
structure State.Inside (s : State) (o : Op) : Prop where
  busy : s.phase = .busy
  latched : s.op = some o
  alone : s.otherMaster = false

section
variable {s : State} {o : Op}

theorem State.Inside.step_reset (h : s.Inside o) (hreset : s.resetNow = true) :
    Machine.step s = .next (resetBlock s) := by
  rw [step_of_busy h.busy h.latched h.alone, transitionOf, if_pos hreset]

theorem State.Inside.step_failure (h : s.Inside o) (hreset : s.resetNow = false) (hfailed : s.failed = true) :
    Machine.step s = .next (transactionFailure s) := by
  rw [step_of_busy h.busy h.latched h.alone, transitionOf, if_neg (by simp [hreset]), if_pos hfailed]

/-- With no reset landing and no failed answer a transition is the sequencer's next move. -/
theorem transitionOf_request (hreset : s.resetNow = false) (hfailed : s.failed = false) {req : Request}
    (hmove : nextMove o s.buf s.step.val = .request req) : transitionOf o s =
      if s.resetOutstanding then .next (resetBlock (issueUnanswered s)) else .next (issue req s) := by
  simp only [transitionOf, hreset, hfailed, hmove, Bool.false_eq_true, if_false]

theorem transitionOf_complete (hreset : s.resetNow = false) (hfailed : s.failed = false)
    (hmove : nextMove o s.buf s.step.val = .complete) : transitionOf o s = completeStep o s := by
  simp only [transitionOf, hreset, hfailed, hmove, Bool.false_eq_true, if_false]

/-- Completion delivers the operation's value, if a read has one to deliver (R158, fourth row). -/
theorem completeStep_eq (hvalue : o.dir = .read → delivered o s ≠ none) :
    completeStep o s = .next (completeOk (delivered o s) s) := by
  obtain ⟨g, _ | _⟩ := o
  · rfl
  · obtain ⟨v, hv⟩ := Option.ne_none_iff_exists'.mp (hvalue rfl)
    simp only [completeStep, hv]

theorem completeStep_next {t : State} (h : completeStep o s = .next t) :
    t = completeOk (delivered o s) s := by
  obtain ⟨g, _ | _⟩ := o
  · cases h
    rfl
  · unfold completeStep at h
    cases hv : delivered ⟨g, .read⟩ s with
    | none => simp [hv] at h
    | some v =>
      simp only [hv] at h
      cases h
      rfl

/-- Everything a transition that answers a next state can do (R158, R231). -/
theorem transition_next {t : State} (h : transition s = .next t) : ∃ o, s.op = some o ∧
    (t = resetBlock s ∧ s.resetNow = true ∨
      t = transactionFailure s ∧ s.failed = true ∨
      t = completeOk (delivered o s) s ∧ s.failed = false ∧ nextMove o s.buf s.step.val = .complete ∨
      t = resetBlock (issueUnanswered s) ∧ s.resetOutstanding = true ∨
      ∃ req, t = issue req s ∧ s.failed = false ∧ nextMove o s.buf s.step.val = .request req) := by
  unfold transition at h
  split at h
  · cases h
  · cases h
  · next o _ hop =>
    refine ⟨o, hop, ?_⟩
    unfold transitionOf at h
    split at h
    · next hreset =>
      cases h
      exact .inl ⟨rfl, hreset⟩
    split at h
    · next hfailed =>
      cases h
      exact .inr (.inl ⟨rfl, hfailed⟩)
    next hfailed =>
    have hfailed : s.failed = false := Bool.eq_false_of_not_eq_true hfailed
    split at h
    · next hmove => exact .inr (.inr (.inl ⟨completeStep_next h, hfailed, hmove⟩))
    · cases h
    next req hmove =>
    split at h
    · next hout =>
      cases h
      exact .inr (.inr (.inr (.inl ⟨rfl, hout⟩)))
    · cases h
      exact .inr (.inr (.inr (.inr ⟨req, rfl, hfailed, hmove⟩)))

theorem step_eq_transition (h : s.phase = .busy) : step s = transition s := by
  rw [step, h]

/-- Settles O7: of the moves of a transition only a reset changes the latched operation, and none takes a byte. -/
theorem busyTakesNoCommand : Obligations.BusyTakesNoCommand := by
  unfold Obligations.BusyTakesNoCommand
  intro s t hbusy h
  rw [step_eq_transition hbusy] at h
  obtain ⟨o, -, ⟨rfl, -⟩ | ⟨rfl, -⟩ | ⟨rfl, -⟩ | ⟨rfl, -⟩ | ⟨req, rfl, -⟩⟩ := transition_next h
  · exact ⟨rfl, .inr ⟨rfl, rfl, rfl⟩⟩
  · exact ⟨rfl, .inl rfl⟩
  · exact ⟨rfl, .inl rfl⟩
  · exact ⟨rfl, .inr ⟨rfl, rfl, rfl⟩⟩
  · exact ⟨rfl, .inl rfl⟩

/-- Settles O43: the failure row of the step relation. -/
theorem transactionFailureEffect : Obligations.TransactionFailureEffect := by
  unfold Obligations.TransactionFailureEffect
  intro s o hbusy hop halone hreset hfailed
  have hin : s.Inside o := ⟨hbusy, hop, halone⟩
  exact ⟨_, hin.step_failure (State.resetNow_of_none hreset) hfailed, rfl, rfl, rfl, rfl, rfl, rfl, rfl⟩

/-- Settles O38: a command looks at the block's phase and the other masters first, a transition at the other masters. -/
theorem interleavingFaults : Obligations.InterleavingFaults := by
  unfold Obligations.InterleavingFaults
  constructor
  · rintro i s (h | h)
    · exact exec_of_taken i s (by simp [State.busTaken, h])
    · exact exec_of_taken i s (by cases hp : s.phase <;> simp [State.busTaken, hp, h])
  · intro s hbusy hmaster
    rw [step_eq_transition hbusy, transition, hmaster]

/-! ### The data an operation needs -/

/-- Operation `o` has the data its coming moves read: a write its image, a read that has received its bytes. -/
structure State.HasData (s : State) (o : Op) (image : List Byte) : Prop where
  to_send : o.dir = .write → Buf.bytes s.buf (len o.group) = some image
  to_deliver : o.dir = .read → 6 ≤ s.step.val → ∃ d, Buf.bytes s.buf (len o.group) = some d

theorem delivered_of_bytes {d : List Byte} (hd : o.dir = .read) (h : Buf.bytes s.buf (len o.group) = some d) :
    delivered o s = decodeGroup o.group d ∧ delivered o s ≠ none := by
  have hvalue : delivered o s = decodeGroup o.group d := by simp [delivered, hd, h]
  obtain ⟨v, hv⟩ := decodeGroup_isSome o.group d (Buf.bytes_length _ _ _ (len_le_seven _) h)
  exact ⟨hvalue, by simp [hvalue, hv]⟩

theorem delivered_of_write (hd : o.dir = .write) : delivered o s = none := by
  simp [delivered, hd]

variable {image : List Byte}

/-- Before its last step the sequencer moves on to the next request of its list. -/
theorem nextMove_request {req : Request} (hsend : o.dir = .write → Buf.bytes s.buf (len o.group) = some image)
    (h : (fullSeq o image)[s.step.val]? = some req) :
    nextMove o s.buf s.step.val = .request req := by
  rw [nextMove_eq o s.buf image _ hsend, h]

/-- After its last step the sequencer completes. -/
theorem nextMove_complete (hdata : s.HasData o image) (h : lastStep o.dir ≤ s.step.val) :
    nextMove o s.buf s.step.val = .complete := by
  have hnone : (fullSeq o image)[s.step.val]? = none := List.getElem?_eq_none (by rwa [fullSeq_length])
  rw [nextMove_eq o s.buf image _ hdata.to_send, hnone]

theorem nextMove_eq_request {req : Request} (hdata : s.HasData o image)
    (h : nextMove o s.buf s.step.val = .request req) : (fullSeq o image)[s.step.val]? = some req := by
  rw [nextMove_eq o s.buf image _ hdata.to_send] at h
  cases hreq : (fullSeq o image)[s.step.val]? with
  | none => simp [hreq] at h
  | some r =>
    simp only [hreq] at h
    cases h
    rfl

theorem nextMove_eq_complete (hdata : s.HasData o image) (h : nextMove o s.buf s.step.val = .complete) :
    lastStep o.dir ≤ s.step.val := by
  rw [nextMove_eq o s.buf image _ hdata.to_send] at h
  cases hreq : (fullSeq o image)[s.step.val]? with
  | none => rwa [List.getElem?_eq_none_iff, fullSeq_length] at hreq
  | some r => simp [hreq] at h

/-- The sequencer's request row (R158, second row), and the reset that lands before its answer (R231). -/
theorem State.Inside.step_request (h : s.Inside o)
    (hsend : o.dir = .write → Buf.bytes s.buf (len o.group) = some image) (hreset : s.resetNow = false)
    (hfailed : s.failed = false) {req : Request} (hreq : (fullSeq o image)[s.step.val]? = some req) :
    Machine.step s = if s.resetOutstanding then .next (resetBlock (issueUnanswered s)) else .next (issue req s) := by
  rw [step_of_busy h.busy h.latched h.alone]
  exact transitionOf_request hreset hfailed (nextMove_request hsend hreq)

/-- The sequencer's completion row (R158, fourth row). -/
theorem State.Inside.step_complete (h : s.Inside o) (hdata : s.HasData o image) (hreset : s.resetNow = false)
    (hfailed : s.failed = false) (hstep : lastStep o.dir ≤ s.step.val) :
    Machine.step s = .next (completeOk (delivered o s) s) := by
  have hvalue : o.dir = .read → delivered o s ≠ none := by
    intro hd
    obtain ⟨d, hbytes⟩ := hdata.to_deliver hd (by rw [hd, lastStep] at hstep; omega)
    exact (delivered_of_bytes hd hbytes).2
  rw [step_of_busy h.busy h.latched h.alone, transitionOf_complete hreset hfailed (nextMove_complete hdata hstep)]
  exact completeStep_eq hvalue

/-! ### The requests of a sequence by their place (R154, R155) -/

theorem fullSeq_zero : (fullSeq o image)[0]? = some .begin := by
  obtain ⟨g, _ | _⟩ := o <;> rfl

theorem fullSeq_two : (fullSeq o image)[2]? = some (.tx (base o.group)) := by
  obtain ⟨g, _ | _⟩ := o <;> rfl

theorem fullSeq_last {k : Nat} (h : k + 1 = lastStep o.dir) : (fullSeq o image)[k]? = some .stop := by
  obtain ⟨g, _ | _⟩ := o <;> cases h <;> rfl

/-- A request between the first and the last neither takes the bus nor frees it. -/
theorem fullSeq_middle {req : Request} {k : Nat} (h : (fullSeq o image)[k]? = some req) (h1 : 1 ≤ k)
    (h2 : k + 1 < lastStep o.dir) : req ≠ .begin ∧ req ≠ .stop := by
  obtain ⟨g, _ | _⟩ := o
  · obtain rfl | rfl | rfl : k = 1 ∨ k = 2 ∨ k = 3 := by simp only [lastStep] at h2; omega
    all_goals cases h; simp
  · obtain rfl | rfl | rfl | rfl | rfl : k = 1 ∨ k = 2 ∨ k = 3 ∨ k = 4 ∨ k = 5 := by
      simp only [lastStep] at h2; omega
    all_goals cases h; simp

/-- Only the fourth request of a write sends data, its image. -/
theorem fullSeq_txn {bs : List Byte} {k : Nat} (h : (fullSeq o image)[k]? = some (.txn bs)) :
    o.dir = .write ∧ k = 3 ∧ bs = image := by
  obtain ⟨g, _ | _⟩ := o
  · match k with
    | 0 | 1 | 2 | 4 => cases h
    | 3 =>
      cases h
      exact ⟨rfl, rfl, rfl⟩
    | k + 5 => simp [fullSeq, writeSeq] at h
  · match k with
    | 0 | 1 | 2 | 3 | 4 | 5 | 6 => cases h
    | k + 7 => simp [fullSeq, readSeq] at h

/-- Only the sixth request of a read receives data, its group's bytes. -/
theorem fullSeq_rx {n k : Nat} (h : (fullSeq o image)[k]? = some (.rx n)) :
    o.dir = .read ∧ k = 5 ∧ n = len o.group := by
  obtain ⟨g, _ | _⟩ := o
  · match k with
    | 0 | 1 | 2 | 3 | 4 => cases h
    | k + 5 => simp [fullSeq, writeSeq] at h
  · match k with
    | 0 | 1 | 2 | 3 | 4 | 6 => cases h
    | 5 =>
      cases h
      exact ⟨rfl, rfl, rfl⟩
    | k + 7 => simp [fullSeq, readSeq] at h

theorem fullSeq_five (h : o.dir = .read) : (fullSeq o image)[5]? = some (.rx (len o.group)) := by
  obtain ⟨g, _ | _⟩ := o
  · cases h
  · rfl

theorem step_lt_of_request {req : Request} (h : (fullSeq o image)[s.step.val]? = some req) :
    s.step.val < lastStep o.dir := by
  obtain ⟨hlt, -⟩ := List.getElem?_eq_some_iff.mp h
  rwa [fullSeq_length] at hlt

theorem issue_step_val {req r : Request} (h : (fullSeq o image)[s.step.val]? = some req) :
    (issue r s).step.val = s.step.val + 1 := by
  have hlast := lastStep_le_seven o.dir
  have hlt := step_lt_of_request h
  exact step_succ _ (by omega)

/-- An `ok` receive leaves its bytes in the buffer (R154). -/
theorem issue_rx_bytes {n : Nat} (hn : n ≤ 7) (hok : s.answerAt 0 ≠ .fail) :
    Buf.bytes (issue (.rx n) s).buf n = some (received (s.answerAt 0) s.mem s.ptr s.draws n) := by
  have hlen := received_length (s.answerAt 0) s.mem s.ptr s.draws n
  have hbytes := Buf.bytes_ofBytes _ (hlen.trans_le hn)
  rw [hlen] at hbytes
  rw [issue_buf, replyTo_ok hok]
  exact hbytes

/-- No request of a write touches its image. -/
theorem issue_buf_of_write {req : Request} (hd : o.dir = .write) (hreq : (fullSeq o image)[s.step.val]? = some req) :
    (issue req s).buf = s.buf := by
  refine issue_buf_plain ?_
  rintro n rfl
  obtain ⟨hread, -⟩ := fullSeq_rx hreq
  simp [hd] at hread

/-- An `ok` request of the sequence leaves the operation the data its later moves read. -/
theorem State.HasData.after_issue (hdata : s.HasData o image) {req : Request}
    (hreq : (fullSeq o image)[s.step.val]? = some req) (hok : s.answerAt 0 ≠ .fail) :
    (issue req s).HasData o image where
  to_send hd := by
    rw [issue_buf_of_write hd hreq]
    exact hdata.to_send hd
  to_deliver hd hstep := by
    rw [issue_step_val hreq] at hstep
    by_cases h5 : s.step.val = 5
    · rw [h5, fullSeq_five hd] at hreq
      cases hreq
      exact ⟨_, issue_rx_bytes (len_le_seven _) hok⟩
    · have hplain : ∀ n, req ≠ .rx n := by
        rintro n rfl
        exact h5 (fullSeq_rx hreq).2.1
      rw [issue_buf_plain hplain]
      exact hdata.to_deliver hd (by omega)

theorem State.Inside.after_issue (h : s.Inside o) (req : Request) : (issue req s).Inside o :=
  ⟨h.busy, h.latched, h.alone⟩

end

theorem acceptCommand_inside (i : Instr) {s : State} (h : s.otherMaster = false) :
    (acceptCommand i s).Inside ⟨i.group, i.dir⟩ := ⟨rfl, rfl, h⟩

theorem acceptCommand_hasData (i : Instr) (s : State) : (acceptCommand i s).HasData ⟨i.group, i.dir⟩ (imageOf i) where
  to_send := acceptCommand_image i s
  to_deliver _ h := by simp [acceptCommand] at h

theorem requestsOf_eq_fullSeq (i : Instr) : requestsOf i = fullSeq ⟨i.group, i.dir⟩ (imageOf i) := rfl

/-! ### The sequencer and the whole operation agree (R158, R163) -/

/-- `n` transitions lead from one state to another, each taken inside an operation. -/
inductive BusyRun : Nat → State → State → Prop where
  | stop (s : State) : BusyRun 0 s s
  | step {n : Nat} {s u t : State} (busy : s.phase = .busy) (first : step s = .next u) (rest : BusyRun n u t) :
      BusyRun (n + 1) s t

theorem BusyRun.single {s t : State} (hbusy : s.phase = .busy) (h : Machine.step s = .next t) : BusyRun 1 s t :=
  .step hbusy h (.stop t)

theorem BusyRun.runSteps {n : Nat} {s t : State} (h : BusyRun n s t) : runSteps n s = .next t := by
  induction h with
  | stop s => rfl
  | step _ hfirst _ ih => rw [runSteps_succ _ hfirst, ih]

theorem BusyRun.inside {n m : Nat} {s t : State} (h : BusyRun n s t) (hm : m < n) :
    ∃ u, Machine.runSteps m s = .next u ∧ u.phase = .busy := by
  induction h generalizing m with
  | stop s => omega
  | step hbusy hfirst _ ih =>
    cases m with
    | zero => exact ⟨_, rfl, hbusy⟩
    | succ m =>
      rw [runSteps_succ _ hfirst]
      exact ih (by omega)

/-- After a failing answer the sequencer needs one transition more: the failure, or the reset that lands first. -/
theorem BusyRun.after_failing {s : State} {o : Op} (hin : s.Inside o) (hfailed : s.failed = true) :
    BusyRun 1 s (finish o (if s.resetNow then .abandoned else .failed, s)) := by
  cases hreset : s.resetNow with
  | true => exact .single hin.busy (hin.step_reset hreset)
  | false => exact .single hin.busy (hin.step_failure hreset hfailed)

/-- The sequencer goes through the requests that are left exactly as the sequence does, and ends as it ends. -/
theorem BusyRun.of_runSeq {o : Op} {image : List Byte} (reqs : List Request) {s : State} (hin : s.Inside o)
    (hdata : s.HasData o image) (hfailed : s.failed = false) (hreqs : (fullSeq o image).drop s.step.val = reqs) :
    ∃ n ≤ reqs.length + 1, BusyRun n s (finish o (runSeq reqs s)) := by
  induction reqs generalizing s with
  | nil =>
    refine ⟨1, Nat.le_refl 1, .single hin.busy ?_⟩
    rw [List.drop_eq_nil_iff, fullSeq_length] at hreqs
    cases hreset : s.resetNow with
    | true => simp only [runSeq, hreset]; exact hin.step_reset hreset
    | false => simp only [runSeq, hreset]; exact hin.step_complete hdata hreset hfailed hreqs
  | cons req reqs ih =>
    have hreq : (fullSeq o image)[s.step.val]? = some req := by
      rw [← List.head?_drop, hreqs, List.head?_cons]
    have hrest : (fullSeq o image).drop (issue req s).step.val = reqs := by
      rw [issue_step_val hreq, ← List.drop_drop, hreqs, List.drop_one, List.tail_cons]
    cases hreset : s.resetNow with
    | true =>
      refine ⟨1, by omega, .single hin.busy ?_⟩
      simp only [runSeq, hreset]
      exact hin.step_reset hreset
    | false =>
      have hstep := hin.step_request hdata.to_send hreset hfailed hreq
      cases hout : s.resetOutstanding with
      | true =>
        rw [hout, if_pos rfl] at hstep
        refine ⟨1, by omega, .single hin.busy ?_⟩
        simp only [runSeq, hreset, hout]
        exact hstep
      | false =>
        rw [hout, if_neg Bool.false_ne_true] at hstep
        by_cases hans : s.answerAt 0 = .fail
        · rw [runSeq_cons_fail hreset hout hans]
          exact ⟨2, by simp, .step hin.busy hstep
            (.after_failing (hin.after_issue req) ((issue_failed_iff req s).mpr hans))⟩
        · have hok : (issue req s).failed = false := by
            rwa [← Bool.not_eq_true, issue_failed_iff]
          obtain ⟨n, hn, hrun⟩ := ih (hin.after_issue req) (hdata.after_issue hreq hans) hok hrest
          rw [runSeq_cons_ok hreset hout hans]
          exact ⟨n + 1, by simpa using hn, .step hin.busy hstep hrun⟩

theorem busTaken_of_idle {s : State} (hidle : s.phase = .idle) (halone : s.otherMaster = false) :
    s.busTaken = false := by
  simp [State.busTaken, hidle, halone]

/-- From the accepted command the sequencer reaches what the whole operation answers. -/
theorem exec_busyRun (i : Instr) {s : State} (hidle : s.phase = .idle) (halone : s.otherMaster = false) :
    ∃ t n, n ≤ 8 ∧ exec i s = .next t ∧ t.phase = .idle ∧ BusyRun n (acceptCommand i s) t := by
  obtain ⟨n, hn, hrun⟩ := BusyRun.of_runSeq (requestsOf i) (acceptCommand_inside i halone) (acceptCommand_hasData i s)
    rfl (requestsOf_eq_fullSeq i).symm
  have hlen := lastStep_le_seven i.dir
  rw [requests_length] at hn
  exact ⟨_, n, by omega, exec_of_not_taken i s (busTaken_of_idle hidle halone), finish_phase .., hrun⟩

/-- Settles O40: by induction on the requests that are left, whatever the answers and the reset. -/
theorem sequencerAgreesWithOperation : Obligations.SequencerAgreesWithOperation := by
  unfold Obligations.SequencerAgreesWithOperation
  intro i s hidle halone
  obtain ⟨t, n, hn, hexec, hphase, hrun⟩ := exec_busyRun i hidle halone
  exact ⟨t, n, hn, hexec, hphase, hrun.runSteps, fun _ hm => hrun.inside hm⟩

/-- Settles O41: the request row of the step relation. -/
theorem sequencerIssuesNextRequest : Obligations.SequencerIssuesNextRequest := by
  unfold Obligations.SequencerIssuesNextRequest
  intro s o hbusy hop halone hreset hfailed hlt image himage
  have hin : s.Inside o := ⟨hbusy, hop, halone⟩
  have hsend : o.dir = .write → Buf.bytes s.buf (len o.group) = some image := fun hd =>
    himage.resolve_right (by simp [hd])
  obtain ⟨req, hreq⟩ : ∃ req, (fullSeq o image)[s.step.val]? = some req :=
    ⟨_, List.getElem?_eq_getElem (by rwa [fullSeq_length])⟩
  have hstep : step s = .next (issue req s) := by
    rw [hin.step_request hsend (State.resetNow_of_none hreset) hfailed hreq, State.resetOutstanding_of_none hreset]
    rfl
  have hreply : replyTo req s = .fail ↔ s.answerAt 0 = .fail := by
    rw [← issue_failed_iff req s, issue_failed]
    cases replyTo req s <;> simp [Reply.isFail]
  exact ⟨_, req, replyTo req s, hstep, hbusy, hreq, issue_step_val hreq, issue_trace req s, issue_failed_iff req s,
    hreply, rfl, rfl, rfl⟩

/-- Settles O42: the completion row of the step relation. -/
theorem sequencerDeliversOk : Obligations.SequencerDeliversOk := by
  unfold Obligations.SequencerDeliversOk
  intro s o bytes hbusy hop halone hreset hfailed hlast hbytes
  have hin : s.Inside o := ⟨hbusy, hop, halone⟩
  have hdata : s.HasData o bytes := ⟨fun _ => hbytes, fun _ _ => ⟨bytes, hbytes⟩⟩
  exact ⟨_, hin.step_complete hdata (State.resetNow_of_none hreset) hfailed hlast.ge, rfl, rfl, rfl, rfl, rfl,
    fun hd => delivered_of_bytes hd hbytes, fun hd => delivered_of_write hd⟩

end Sys2Proof.Machine

namespace Sys2Proof.Machine

/-!
### Reset of an idle block, and the growing trace (spec/70_reset_and_hazards.md R230, R231; spec/20_memory.md R59)
-/

/-- Settles O47: each value by evaluation. -/
theorem resetValues : Obligations.ResetValues := by
  unfold Obligations.ResetValues
  exact ⟨rfl, rfl, rfl, rfl, rfl, rfl, rfl, rfl⟩

/-- A reset of an idle block keeps the environment's fields and no other. -/
theorem resetBlock_of_idle {s : State} (hidle : s.phase = .idle) :
    resetBlock s = { State.reset with
      bus := s.bus, mem := s.mem, ptr := s.ptr, cmdIn := s.cmdIn, answers := s.answers, draws := s.draws
      otherMaster := s.otherMaster } := by
  simp only [resetBlock, hidle, State.reset]

/-- Settles O49. -/
theorem idleResetTouchesNoBus : Obligations.IdleResetTouchesNoBus := by
  unfold Obligations.IdleResetTouchesNoBus
  intro s hidle hreset
  exact ⟨_, step_of_idle_reset hidle (by simp [State.resetNow, hreset]), resetBlock_of_idle hidle⟩

/-- The end of a sequence that no reset abandoned keeps the events. -/
theorem finish_trace {r : RunEnd × State} (o : Op) (h : r.1 ≠ .abandoned) : (finish o r).trace = r.2.trace := by
  unfold finish
  split
  · rfl
  · rfl
  · next habandoned => exact absurd habandoned h

/-- With no reset on its way a command extends the trace by events of its own requests, in order from the first. -/
theorem exec_trace {i : Instr} {s t : State} (h : exec i s = .next t) (hreset : s.resetIn = none) :
    ∃ es j, t.trace = s.trace ++ es ∧ es.map Event.req = (requestsOf i).take j := by
  obtain ⟨-, rfl⟩ := exec_next h
  have hend : (runSeq (requestsOf i) (acceptCommand i s)).1 ≠ .abandoned := runSeq_not_abandoned _ _ hreset
  rw [finish_trace _ hend]
  obtain ⟨j, -, hend, -⟩ := runSeq_reach (requestsOf i) (acceptCommand i s)
  obtain ⟨es, htrace, hreqs⟩ := issueAll_trace ((requestsOf i).take j) (acceptCommand i s)
  obtain hend | hend := hend <;> exact ⟨es, j, by rw [hend]; exact htrace, hreqs⟩

/-- Settles O45: a step of an idle block runs a whole command or changes nothing; a transition adds the event of its
request, or none. -/
theorem traceOnlyGrows : Obligations.TraceOnlyGrows := by
  unfold Obligations.TraceOnlyGrows
  intro s t hreset h
  have hnow := State.resetNow_of_none hreset
  cases hp : s.phase with
  | idle =>
    obtain ⟨hr, -⟩ | ⟨i, rest, -, hs⟩ | hs | ⟨cmd, -, hs⟩ := step_of_idle_cases hp
    · simp [hnow] at hr
    · rw [hs] at h
      obtain ⟨es, j, htrace, -⟩ := exec_trace h hreset
      exact ⟨es, htrace⟩
    · rw [hs] at h
      cases h
      exact ⟨[], (List.append_nil _).symm⟩
    · rw [hs] at h
      cases h
  | busy =>
    rw [step_eq_transition hp] at h
    obtain ⟨o, -, ⟨-, hr⟩ | ⟨rfl, -⟩ | ⟨rfl, -⟩ | ⟨-, hr⟩ | ⟨req, rfl, -⟩⟩ := transition_next h
    · simp [hnow] at hr
    · exact ⟨[], (List.append_nil _).symm⟩
    · exact ⟨[], (List.append_nil _).symm⟩
    · simp [State.resetOutstanding_of_none hreset] at hr
    · exact ⟨_, issue_trace req s⟩

end Sys2Proof.Machine

namespace Sys2Proof.Machine

/-!
### The invariant (spec/10_state.md section 3; spec/20_memory.md R48; spec/42_transactions.md R158)

A transition keeps the invariant row by row; acceptance establishes it inside the operation; and a whole operation is a
run of transitions from acceptance (`exec_busyRun`), so it keeps the invariant too.
-/

/-- The registers' part of the invariant: the canonical form, and only registers 0x00 to 0x0F listed (R48). -/
def Memory.InRange (m : Memory) : Prop := Memory.wf m = true ∧ ∀ c ∈ m, c.1 < 16

/-- The trace's part of the invariant (R48, R54, R152). -/
def LegalTrace (es : List Event) : Prop := ∀ e ∈ es, Request.legal e.req = true

theorem Memory.InRange.writeBytes {m : Memory} (h : m.InRange) {a : Nat} {bs : List Byte} (hfit : a + bs.length ≤ 16) :
    (Memory.writeBytes m a bs).InRange := by
  obtain ⟨hwf, hreached⟩ := h
  refine ⟨Memory.writeBytes_wf bs m a hwf, fun c hc => ?_⟩
  obtain ⟨-, hlt⟩ | hold := Memory.mem_writeBytes bs m a c hc
  · omega
  · exact hreached c hold

theorem Memory.InRange.forgetIfSent {s : State} (h : Memory.InRange s.mem) : (forgetIfSent s).InRange :=
  forgetIfSent_keeps h.1 h.2

theorem Memory.InRange.resetBlock {s : State} (h : Memory.InRange s.mem) : Memory.InRange (resetBlock s).mem := by
  rw [resetBlock_mem]
  split
  · exact h.forgetIfSent
  · exact h

section
variable {s : State} {o : Op} {image : List Byte} {req : Request}

/-! ### Between operations -/

theorem inv_resetBlock (hm : Memory.InRange s.mem) : (resetBlock s).Inv where
  memory_canonical := hm.resetBlock.1
  memory_reached := hm.resetBlock.2
  trace_legal := nofun
  idle_outcome _ := ⟨rfl, rfl, nofun, nofun⟩
  value_delivered h := absurd rfl h
  busy_operation := nofun

theorem inv_transactionFailure (hm : Memory.InRange s.mem) (ht : LegalTrace s.trace) (hbus : s.bus = .unknown) :
    (transactionFailure s).Inv where
  memory_canonical := hm.forgetIfSent.1
  memory_reached := hm.forgetIfSent.2
  trace_legal := ht
  idle_outcome _ := ⟨rfl, rfl, nofun, fun _ => hbus⟩
  value_delivered h := absurd rfl h
  busy_operation := nofun

theorem inv_completeOk (hm : Memory.InRange s.mem) (ht : LegalTrace s.trace) (hop : s.op = some o)
    (hbus : s.bus = .free) : (completeOk (delivered o s) s).Inv where
  memory_canonical := hm.1
  memory_reached := hm.2
  trace_legal := ht
  idle_outcome _ := ⟨rfl, rfl, fun _ => hbus, nofun⟩
  value_delivered h := by
    refine ⟨rfl, rfl, o, hop, ?_⟩
    cases hd : o.dir with
    | read => rfl
    | write => exact absurd (delivered_of_write hd) h
  busy_operation := nofun

/-! ### Inside an operation -/

theorem inv_of_busyInv (hm : Memory.InRange s.mem) (ht : LegalTrace s.trace) (hbusy : s.phase = .busy)
    (hop : s.op = some o) (h : s.BusyInv o) : s.Inv where
  memory_canonical := hm.1
  memory_reached := hm.2
  trace_legal := ht
  idle_outcome hidle := by simp [hbusy] at hidle
  value_delivered hv := absurd h.no_outcome.2.1 hv
  busy_operation _ := ⟨o, hop, h⟩

theorem State.Inv.inRange (h : s.Inv) : Memory.InRange s.mem := ⟨h.memory_canonical, h.memory_reached⟩

theorem inv_acceptCommand (i : Instr) (hm : Memory.InRange s.mem) (ht : LegalTrace s.trace) :
    (acceptCommand i s).Inv :=
  inv_of_busyInv (o := ⟨i.group, i.dir⟩) hm ht rfl rfl {
    no_outcome := ⟨rfl, rfl, rfl⟩
    step_range := Nat.zero_le _
    bus_failed := nofun
    bus_held := fun _ h => absurd h (by simp [acceptCommand])
    bus_free := fun _ h => by cases i <;> cases h
    image_written := fun hd => by simp [acceptCommand_image i s hd]
    bytes_received := fun _ _ h => absurd h (by simp [acceptCommand])
    pointer_set := fun _ h => by cases h }

/-- The data clauses of the invariant, for an operation none of whose answers failed. -/
theorem State.BusyInv.hasData (h : s.BusyInv o) (hfailed : s.failed = false) :
    ∃ image, s.HasData o image ∧ (o.dir = .write → image.length = len o.group) := by
  cases hd : o.dir with
  | write =>
    obtain ⟨image, himage⟩ := Option.isSome_iff_exists.mp (h.image_written hd)
    exact ⟨image, ⟨fun _ => himage, fun hr => by simp [hd] at hr⟩,
      fun _ => Buf.bytes_length _ _ _ (len_le_seven _) himage⟩
  | read =>
    refine ⟨[], ⟨fun hw => by simp [hd] at hw, fun _ hstep => ?_⟩, nofun⟩
    exact Option.isSome_iff_exists.mp (h.bytes_received hd hfailed hstep)

/-- Between begin and stop no `ok` request changes the bus condition (R32). -/
theorem busAfter_middle {bs : List Byte} (hbegin : req ≠ .begin) (hstop : req ≠ .stop) (bus : BusCond) :
    busAfter req (.ok bs) bus = bus := by
  cases req with
  | begin => exact absurd rfl hbegin
  | stop => exact absurd rfl hstop
  | addr | tx | txn | rx | restart => rfl

/-- R32 through the requests of a sequence: HELD from the `ok` begin on. -/
theorem State.BusyInv.issue_bus_held (h : s.BusyInv o) (hfailed : s.failed = false)
    (hreq : (fullSeq o image)[s.step.val]? = some req) (hok : s.answerAt 0 ≠ .fail)
    (hlt : s.step.val + 1 < lastStep o.dir) : (issue req s).bus = .held := by
  rw [issue_bus, replyTo_ok hok]
  obtain h0 | hpos := Nat.eq_zero_or_pos s.step.val
  · rw [h0, fullSeq_zero] at hreq
    cases hreq
    rfl
  · obtain ⟨hbegin, hstop⟩ := fullSeq_middle hreq hpos hlt
    rw [busAfter_middle hbegin hstop]
    exact h.bus_held hfailed hpos (by omega)

theorem State.BusyInv.after_issue (h : s.BusyInv o) (hfailed : s.failed = false) (hdata : s.HasData o image)
    (hreq : (fullSeq o image)[s.step.val]? = some req) : (issue req s).BusyInv o where
  no_outcome := h.no_outcome
  step_range := by
    rw [issue_step_val hreq]
    exact step_lt_of_request hreq
  bus_failed hf := by
    obtain ⟨hbus, -⟩ := issue_fail_bus_ptr (req := req) ((issue_failed_iff req s).mp hf)
    exact ⟨hbus, by rw [issue_step_val hreq]; omega⟩
  bus_held hok _ hlt := by
    rw [issue_step_val hreq] at hlt
    exact h.issue_bus_held hfailed hreq (issue_not_failed hok) hlt
  bus_free hok hlast := by
    rw [issue_step_val hreq] at hlast
    rw [fullSeq_last hlast] at hreq
    cases hreq
    rw [issue_bus, replyTo_ok (issue_not_failed hok)]
    rfl
  image_written hd := by
    rw [issue_buf_of_write hd hreq]
    exact h.image_written hd
  bytes_received hd hok hstep :=
    Option.isSome_iff_exists.mpr ((hdata.after_issue hreq (issue_not_failed hok)).to_deliver hd hstep)
  pointer_set hok hthree := by
    rw [issue_step_val hreq] at hthree
    rw [show s.step.val = 2 by omega, fullSeq_two] at hreq
    cases hreq
    exact issue_tx_ptr hok

/-- A write's data lands in its group's registers and nowhere else (R48, R49). -/
theorem State.BusyInv.issue_inRange (h : s.BusyInv o) (hfailed : s.failed = false) (hm : Memory.InRange s.mem)
    (hlen : o.dir = .write → image.length = len o.group) (hreq : (fullSeq o image)[s.step.val]? = some req) :
    Memory.InRange (issue req s).mem := by
  by_cases htxn : ∃ bs, req = .txn bs
  · obtain ⟨bs, rfl⟩ := htxn
    obtain ⟨hd, hstep, rfl⟩ := fullSeq_txn hreq
    rw [issue_mem, h.pointer_set hfailed hstep]
    cases replyTo (.txn bs) s with
    | fail => exact hm
    | ok => exact hm.writeBytes (by rw [hlen hd]; exact base_add_len_le o.group)
  · rw [issue_mem_plain fun bs he => htxn ⟨bs, he⟩]
    exact hm

theorem LegalTrace.issue (ht : LegalTrace s.trace) (hlen : o.dir = .write → image.length = len o.group)
    (hreq : (fullSeq o image)[s.step.val]? = some req) : LegalTrace (issue req s).trace := by
  intro e he
  rw [issue_trace, List.mem_append, List.mem_singleton] at he
  obtain hold | rfl := he
  · exact ht e hold
  · exact fullSeq_legal o image hlen req (List.mem_of_getElem? hreq)

end

/-! ### Steps and runs -/

/-- A transition keeps the invariant. -/
theorem State.Inv.busy_step {s t : State} (h : s.Inv) (hbusy : s.phase = .busy) (hstep : Machine.step s = .next t) :
    t.Inv := by
  obtain ⟨o, hop, hb⟩ := h.busy_operation hbusy
  rw [step_eq_transition hbusy] at hstep
  obtain ⟨o', hop', hcases⟩ := transition_next hstep
  obtain rfl : o' = o := Option.some.inj (hop'.symm.trans hop)
  obtain ⟨rfl, -⟩ | ⟨rfl, hfailed⟩ | ⟨rfl, hfailed, hmove⟩ | ⟨rfl, -⟩ | ⟨req, rfl, hfailed, hmove⟩ := hcases
  · exact inv_resetBlock h.inRange
  · exact inv_transactionFailure h.inRange h.trace_legal (hb.bus_failed hfailed).1
  · obtain ⟨image, hdata, -⟩ := hb.hasData hfailed
    have hlast := le_antisymm hb.step_range (nextMove_eq_complete hdata hmove)
    exact inv_completeOk h.inRange h.trace_legal hop (hb.bus_free hfailed hlast)
  · exact inv_resetBlock (s := issueUnanswered s) h.inRange
  · obtain ⟨image, hdata, hlen⟩ := hb.hasData hfailed
    have hreq := nextMove_eq_request hdata hmove
    exact inv_of_busyInv (hb.issue_inRange hfailed h.inRange hlen hreq) (LegalTrace.issue h.trace_legal hlen hreq) hbusy
      hop (hb.after_issue hfailed hdata hreq)

theorem BusyRun.keeps_inv {n : Nat} {s t : State} (hrun : BusyRun n s t) (h : s.Inv) : t.Inv := by
  induction hrun with
  | stop s => exact h
  | step hbusy hfirst _ ih => exact ih (h.busy_step hbusy hfirst)

/-- A whole operation keeps the registers and the trace within the invariant, and ends in a state that meets it. -/
theorem exec_inv {i : Instr} {s t : State} (h : exec i s = .next t) (hm : Memory.InRange s.mem)
    (ht : LegalTrace s.trace) : t.Inv := by
  obtain ⟨htaken, -⟩ := exec_next h
  obtain ⟨hidle, halone⟩ : s.phase = .idle ∧ s.otherMaster = false := by
    cases hp : s.phase <;> simp_all [State.busTaken]
  obtain ⟨t', n, -, hexec, -, hrun⟩ := exec_busyRun i hidle halone
  rw [h] at hexec
  cases hexec
  exact hrun.keeps_inv (inv_acceptCommand i hm ht)

/-- Settles O51: an idle step is a reset, a whole operation or nothing, and a busy step one transition. -/
theorem stepKeepsInvariant : Obligations.StepKeepsInvariant := by
  unfold Obligations.StepKeepsInvariant
  intro s t h hstep
  cases hp : s.phase with
  | busy => exact h.busy_step hp hstep
  | idle =>
    obtain ⟨-, hs⟩ | ⟨i, rest, -, hs⟩ | hs | ⟨cmd, -, hs⟩ := step_of_idle_cases hp <;> rw [hs] at hstep
    · cases hstep
      exact inv_resetBlock h.inRange
    · exact exec_inv hstep h.inRange h.trace_legal
    · cases hstep
      exact h
    · cases hstep

/-- Settles O50: the reset state is what a reset leaves of itself. -/
theorem resetMeetsInvariant : Obligations.ResetMeetsInvariant := by
  unfold Obligations.ResetMeetsInvariant
  exact inv_resetBlock (s := State.reset) ⟨reset_memory_wf, nofun⟩

/-- Inside an operation that meets the invariant, and with no other master, a step answers a next state: the data its
move reads is there (R36). -/
theorem State.BusyInv.step_next {s : State} {o : Op} (h : s.BusyInv o) (hin : s.Inside o) :
    ∃ t, Machine.step s = .next t := by
  cases hreset : s.resetNow with
  | true => exact ⟨_, hin.step_reset hreset⟩
  | false =>
    cases hfailed : s.failed with
    | true => exact ⟨_, hin.step_failure hreset hfailed⟩
    | false =>
      obtain ⟨image, hdata, -⟩ := h.hasData hfailed
      cases hreq : (fullSeq o image)[s.step.val]? with
      | none =>
        rw [List.getElem?_eq_none_iff, fullSeq_length] at hreq
        exact ⟨_, hin.step_complete hdata hreset hfailed hreq⟩
      | some req =>
        rw [hin.step_request hdata.to_send hreset hfailed hreq]
        split <;> exact ⟨_, rfl⟩

/-- In a state that meets the invariant the only fault a step can raise is that of two operations on one bus. -/
theorem State.Inv.step_fault {s : State} {f : Fault} (h : s.Inv) (hstep : Machine.step s = .fault f) :
    f = .interleaved := by
  cases hp : s.phase with
  | idle =>
    obtain ⟨-, hs⟩ | ⟨i, rest, -, hs⟩ | hs | ⟨cmd, -, hs⟩ := step_of_idle_cases hp <;> rw [hs] at hstep
    · cases hstep
    · generalize hs' : { s with cmdIn := rest } = s' at hstep
      cases htaken : s'.busTaken with
      | true => rw [exec_of_taken i s' htaken] at hstep; cases hstep; rfl
      | false => rw [exec_of_not_taken i s' htaken] at hstep; cases hstep
    · cases hstep
    · cases hstep
  | busy =>
    cases hmaster : s.otherMaster with
    | true =>
      rw [step_eq_transition hp, transition, hmaster] at hstep
      cases hstep
      rfl
    | false =>
      obtain ⟨o, hop, hb⟩ := h.busy_operation hp
      obtain ⟨t, ht⟩ := hb.step_next ⟨hp, hop, hmaster⟩
      rw [ht] at hstep
      cases hstep

/-- Settles O52: under the invariant a step's only fault is another one. -/
theorem noUnwrittenByteRead : Obligations.NoUnwrittenByteRead := by
  unfold Obligations.NoUnwrittenByteRead
  intro s h
  constructor
  · intro hstep
    cases h.step_fault hstep
  · intro hstep
    cases h.step_fault hstep

end Sys2Proof.Machine

namespace Sys2Proof.Machine

/-!
### The register codec there and back (spec/40_bcd_codec.md R106, R107; spec/41_register_codec.md R128, R131 to R133)

A field that is encoded and decoded comes back cut to its width; a byte that is decoded and encoded comes back with its
reserved bits cleared if its ones digit is decimal. Each law is proved for a byte, then read off for every image.
-/

/-- A BCD field after encoding and decoding: its tens digit cut to `tw` bits (R107). -/
def cutBcd (v : Byte) (tw : Nat) : Byte := unpackBcd (packBcd v tw) tw

/-- The day field after encoding and decoding. -/
def cutDay (v : Byte) : Byte := unpackPlain (packPlain v 0 3) 0 3

theorem cutBcd_toNat (v : Byte) {tw : Nat} (h : tw ≤ 4) :
    (cutBcd v tw).toNat = (v.toNat / 10 % 2 ^ tw) * 10 + v.toNat % 10 := by
  have htens : ((v.toNat / 10 % 2 ^ tw) * 16 + v.toNat % 10) / 16 = v.toNat / 10 % 2 ^ tw := by omega
  have hones : ((v.toNat / 10 % 2 ^ tw) * 16 + v.toNat % 10) % 16 = v.toNat % 10 := by omega
  rw [cutBcd, unpackBcd_toNat _ h, bcdValue, packBcd_toNat v h, bcdImage, htens, hones, Nat.mod_mod]

theorem cutBcd_eq_self_iff (v : Byte) {tw : Nat} (h : tw ≤ 4) : cutBcd v tw = v ↔ v.toNat ≤ 10 * (2 ^ tw - 1) + 9 := by
  have hpos : 0 < 2 ^ tw := Nat.two_pow_pos tw
  calc cutBcd v tw = v
      ↔ (v.toNat / 10 % 2 ^ tw) * 10 + v.toNat % 10 = v.toNat := by rw [← BitVec.toNat_inj, cutBcd_toNat v h]
    _ ↔ v.toNat / 10 % 2 ^ tw = v.toNat / 10 := by omega
    _ ↔ v.toNat / 10 < 2 ^ tw := Nat.mod_eq_iff_lt hpos.ne'
    _ ↔ v.toNat ≤ 10 * (2 ^ tw - 1) + 9 := by omega

theorem cutDay_toNat (v : Byte) : (cutDay v).toNat = v.toNat % 8 := by
  rw [cutDay, unpackDay_toNat, packDay_toNat, Nat.mod_mod]

theorem cutDay_eq_self_iff (v : Byte) : cutDay v = v ↔ v.toNat ≤ 7 := by
  rw [← BitVec.toNat_inj, cutDay_toNat]
  omega

/-- Settles O13: a field's cut in whole numbers, and where it is the field itself. -/
theorem bcdRoundTripTruncates : Obligations.BcdRoundTripTruncates := by
  unfold Obligations.BcdRoundTripTruncates
  exact fun v _ _ h => ⟨cutBcd_toNat v h, cutBcd_eq_self_iff v h⟩

/-! ### Encode, then decode -/

/-- Every clock field comes back by itself: the century flag and the month share a byte and do not touch (R131). -/
theorem decodeClock_encodeClock (v : ClockValue) : decodeClock (encodeClock v) =
    { seconds := cutBcd v.seconds 3, minutes := cutBcd v.minutes 3, hours := cutBcd v.hours 2, day := cutDay v.day
      date := cutBcd v.date 2, century := v.century, month := cutBcd v.month 1, year := cutBcd v.year 4 } := by
  have hcentury := unpackFlag_or_flag v.month v.century 1 (by decide) (by decide)
  have hmonth := unpackBcd_or_flag (packBcd v.month 1) v.century 1 (by decide) (by decide)
  simp only [decodeClock, ClockValue.mk.injEq]
  exact ⟨rfl, rfl, rfl, rfl, rfl, hcentury, hmonth, rfl⟩

theorem decodeAlarm1_encodeAlarm1 (a : AlarmValue) : decodeAlarm1 (encodeAlarm1 a) =
    { a with
      seconds := cutBcd a.seconds 3, minutes := cutBcd a.minutes 3, hours := cutBcd a.hours 2
      date := cutBcd a.date 2 } := by
  have hflag (v : Byte) (f : Bit) {tw : Nat} (h1 : 1 ≤ tw) (h2 : tw ≤ 3) := unpackFlag_flag_or v f tw h1 h2
  have hbcd (v : Byte) (f : Bit) {tw : Nat} (h1 : 1 ≤ tw) (h2 : tw ≤ 3) := unpackBcd_flag_or (packBcd v tw) f tw h1 h2
  simp only [decodeAlarm1, AlarmValue.mk.injEq]
  exact ⟨hflag _ _ (by decide) (by decide), hbcd _ _ (by decide) (by decide), hflag _ _ (by decide) (by decide),
    hbcd _ _ (by decide) (by decide), hflag _ _ (by decide) (by decide), hbcd _ _ (by decide) (by decide),
    hflag _ _ (by decide) (by decide), hbcd _ _ (by decide) (by decide)⟩

/-- The alarm-2 image is alarm 1's without its first byte (R124, R125). -/
theorem decodeAlarm2_encodeAlarm2 (a : AlarmValue) : decodeAlarm2 (encodeAlarm2 a) =
    { decodeAlarm1 (encodeAlarm1 a) with m1 := 0, seconds := 0 } := rfl

/-- Settles O14: each field's cut in whole numbers. -/
theorem clockFieldsTruncateIndependently : Obligations.ClockFieldsTruncateIndependently := by
  unfold Obligations.ClockFieldsTruncateIndependently
  intro v
  rw [decodeClock_encodeClock]
  exact ⟨cutBcd_toNat _ (by decide), cutBcd_toNat _ (by decide), cutBcd_toNat _ (by decide), cutDay_toNat _,
    cutBcd_toNat _ (by decide), rfl, cutBcd_toNat _ (by decide), cutBcd_toNat _ (by decide)⟩

/-- A field of three tens bits. -/
theorem cutBcd_three_eq_self_iff (v : Byte) : cutBcd v 3 = v ↔ v.toNat ≤ 79 := cutBcd_eq_self_iff v (by decide)

/-- A field of two tens bits. -/
theorem cutBcd_two_eq_self_iff (v : Byte) : cutBcd v 2 = v ↔ v.toNat ≤ 39 := cutBcd_eq_self_iff v (by decide)

/-- Settles O15: every field is its own cut exactly when it is representable. -/
theorem clockRoundTripExactlyRepresentable : Obligations.ClockRoundTripExactlyRepresentable := by
  unfold Obligations.ClockRoundTripExactlyRepresentable
  intro v
  obtain ⟨seconds, minutes, hours, day, date, century, month, year⟩ := v
  have hmonth : cutBcd month 1 = month ↔ month.toNat ≤ 19 := cutBcd_eq_self_iff month (by decide)
  have hyear : cutBcd year 4 = year ↔ year.toNat ≤ 159 := cutBcd_eq_self_iff year (by decide)
  simp only [decodeClock_encodeClock, ClockValue.mk.injEq, cutBcd_three_eq_self_iff, cutBcd_two_eq_self_iff,
    cutDay_eq_self_iff, hmonth, hyear, true_and]

/-- Settles O16: as for the clock, the flags unconditionally. -/
theorem alarmRoundTripExactlyRepresentable : Obligations.AlarmRoundTripExactlyRepresentable := by
  unfold Obligations.AlarmRoundTripExactlyRepresentable
  intro a
  obtain ⟨m1, seconds, m2, minutes, m3, hours, m4, date⟩ := a
  simp only [decodeAlarm2_encodeAlarm2, decodeAlarm1_encodeAlarm1, AlarmValue.mk.injEq, cutBcd_three_eq_self_iff,
    cutBcd_two_eq_self_iff, true_and, and_self]

/-! ### Decode, then encode -/

theorem packFlag_toNat (f : Bit) : (packFlag f).toNat = 128 * f.toNat := by
  revert f
  decide

/-- A flag adds to a byte that leaves bit 7 free. -/
theorem packFlag_or_toNat (f : Bit) {x : Byte} (hx : x.toNat < 128) :
    (packFlag f ||| x).toNat = 128 * f.toNat + x.toNat := by
  have hflag : (packFlag f).toNat = f.toNat <<< 7 := by
    rw [packFlag_toNat, Nat.shiftLeft_eq, Nat.mul_comm]
  rw [BitVec.toNat_or, hflag, ← Nat.shiftLeft_add_eq_or_of_lt hx, Nat.shiftLeft_eq, Nat.mul_comm]

theorem packFlag_or_inj (f : Bit) {x y : Byte} (hx : x.toNat < 128) (hy : y.toNat < 128) :
    packFlag f ||| x = packFlag f ||| y ↔ x = y := by
  rw [← BitVec.toNat_inj, ← BitVec.toNat_inj, packFlag_or_toNat f hx, packFlag_or_toNat f hy]
  omega

/-- Bit 7 of a byte is its flag. -/
theorem flagBit_and (b : Byte) : 0x80 &&& b = packFlag (unpackFlag b) := by
  revert b
  decide

theorem packBcd_lt (v : Byte) {tw : Nat} (h : tw ≤ 4) : (packBcd v tw).toNat < 2 ^ (4 + tw) := by
  have htens : v.toNat / 10 % 2 ^ tw < 2 ^ tw := Nat.mod_lt _ (Nat.two_pow_pos tw)
  rw [packBcd_toNat v h, bcdImage, Nat.pow_add]
  omega

/-- A BCD byte keeps its `4 + tw` bits exactly when its ones digit is decimal: unpacking carries a larger digit into the
tens. -/
theorem packBcd_unpackBcd_iff (b : Byte) {tw : Nat} (h : tw ≤ 4) :
    packBcd (unpackBcd b tw) tw = mask (4 + tw) &&& b ↔ b.toNat % 16 ≤ 9 := by
  have htens : b.toNat / 16 % 2 ^ tw < 2 ^ tw := Nat.mod_lt _ (Nat.two_pow_pos tw)
  have hkept : (mask (4 + tw) &&& b).toNat = b.toNat % 16 + 16 * (b.toNat / 16 % 2 ^ tw) := by
    rw [BitVec.and_comm, and_mask_toNat, Nat.pow_add, Nat.mod_mul]
  rw [← BitVec.toNat_inj, packBcd_toNat _ h, bcdImage, unpackBcd_toNat b h, bcdValue, hkept]
  constructor
  · intro heq
    omega
  · intro hones
    have hsame : (b.toNat / 16 % 2 ^ tw * 10 + b.toNat % 16) / 10 = b.toNat / 16 % 2 ^ tw := by omega
    rw [hsame, Nat.mod_mod]
    omega

/-- The same for a byte with a flag at bit 7. -/
theorem flag_packBcd_unpackBcd_iff (b : Byte) {tw : Nat} (h : tw ≤ 3) :
    packFlag (unpackFlag b) ||| packBcd (unpackBcd b tw) tw = (0x80 ||| mask (4 + tw)) &&& b ↔ b.toNat % 16 ≤ 9 := by
  have hfit : 2 ^ (4 + tw) ≤ 128 := Nat.pow_le_pow_right (i := 4 + tw) (j := 7) (by decide) (by omega)
  have hpack : (packBcd (unpackBcd b tw) tw).toNat < 128 := (packBcd_lt _ (by omega)).trans_le hfit
  have hkept : (mask (4 + tw) &&& b).toNat < 128 := by
    rw [BitVec.and_comm, and_mask_toNat]
    exact (Nat.mod_lt _ (Nat.two_pow_pos _)).trans_le hfit
  rw [BitVec.and_or_distrib_right, flagBit_and, packFlag_or_inj _ hpack hkept, packBcd_unpackBcd_iff b (by omega)]

/-- The reserved bits of a byte of three tens bits (R128). -/
theorem reencode_three_iff (b : Byte) : packBcd (unpackBcd b 3) 3 = b &&& ~~~0x80 ↔ b.toNat % 16 ≤ 9 := by
  rw [BitVec.and_comm]
  exact packBcd_unpackBcd_iff b (by decide)

/-- The reserved bits of a byte of two tens bits. -/
theorem reencode_two_iff (b : Byte) : packBcd (unpackBcd b 2) 2 = b &&& ~~~0xC0 ↔ b.toNat % 16 ≤ 9 := by
  rw [BitVec.and_comm]
  exact packBcd_unpackBcd_iff b (by decide)

/-- A byte of four tens bits has no reserved bit. -/
theorem reencode_four_iff (b : Byte) : packBcd (unpackBcd b 4) 4 = b &&& ~~~0x00 ↔ b.toNat % 16 ≤ 9 := by
  rw [BitVec.and_comm]
  exact packBcd_unpackBcd_iff b (by decide)

/-- The reserved bits between the month and the century flag. -/
theorem reencode_month_iff (b : Byte) :
    packBcd (unpackBcd b 1) 1 ||| packFlag (unpackFlag b) = b &&& ~~~0x60 ↔ b.toNat % 16 ≤ 9 := by
  rw [BitVec.or_comm, BitVec.and_comm]
  exact flag_packBcd_unpackBcd_iff b (by decide)

/-- A byte of a mask flag and three tens bits has no reserved bit. -/
theorem reencode_flag_three_iff (b : Byte) :
    packFlag (unpackFlag b) ||| packBcd (unpackBcd b 3) 3 = b &&& ~~~0x00 ↔ b.toNat % 16 ≤ 9 := by
  rw [BitVec.and_comm]
  exact flag_packBcd_unpackBcd_iff b (by decide)

/-- The reserved bit of a byte of a mask flag and two tens bits. -/
theorem reencode_flag_two_iff (b : Byte) :
    packFlag (unpackFlag b) ||| packBcd (unpackBcd b 2) 2 = b &&& ~~~0x40 ↔ b.toNat % 16 ≤ 9 := by
  rw [BitVec.and_comm]
  exact flag_packBcd_unpackBcd_iff b (by decide)

theorem packDay_unpackDay (b : Byte) : packPlain (unpackPlain b 0 3) 0 3 = b &&& ~~~0xF8 := by
  revert b
  decide

/-- Settles O17: byte by byte; the day's byte needs no condition. -/
theorem clockReencodesExactlyDecimalOnes : Obligations.ClockReencodesExactlyDecimalOnes := by
  unfold Obligations.ClockReencodesExactlyDecimalOnes
  intro p
  simp only [Nat.forall_lt_succ_left', Nat.not_lt_zero, forall_false, implies_true, and_true]
  constructor
  · rintro ⟨hsec, hmin, hhour, -, hdate, hmonth, hyear⟩
    exact ⟨(reencode_three_iff _).mp hsec, (reencode_three_iff _).mp hmin, (reencode_two_iff _).mp hhour,
      (reencode_two_iff _).mp hdate, (reencode_month_iff _).mp hmonth, (reencode_four_iff _).mp hyear⟩
  · rintro ⟨hsec, hmin, hhour, hdate, hmonth, hyear⟩
    exact ⟨(reencode_three_iff _).mpr hsec, (reencode_three_iff _).mpr hmin, (reencode_two_iff _).mpr hhour,
      packDay_unpackDay _, (reencode_two_iff _).mpr hdate, (reencode_month_iff _).mpr hmonth,
      (reencode_four_iff _).mpr hyear⟩

theorem encodeControl_decodeControl (p : Vector Byte 2) : encodeControl (decodeControl p) = p := by
  ext j hj
  interval_cases j <;> rfl

/-- Settles O18: byte by byte. -/
theorem alarmAndControlReencode : Obligations.AlarmAndControlReencode := by
  unfold Obligations.AlarmAndControlReencode
  refine ⟨fun p => forall₂_congr fun j h => ?_, fun p => forall₂_congr fun j h => ?_, encodeControl_decodeControl⟩
  · interval_cases j
    · exact reencode_flag_three_iff p[0]
    · exact reencode_flag_three_iff p[1]
    · exact reencode_flag_two_iff p[2]
    · exact reencode_flag_two_iff p[3]
  · interval_cases j
    · exact reencode_flag_three_iff p[0]
    · exact reencode_flag_two_iff p[1]
    · exact reencode_flag_two_iff p[2]

/-! ### Reserved bits -/

/-- A byte below `2 ^ w` has no bit in common with one that has no bit below `w`. -/
theorem and_eq_zero_of_lt {x m : Byte} (w : Nat) (hx : x.toNat < 2 ^ w) (hm : mask w &&& m = 0) : x &&& m = 0 := by
  have hself : x &&& mask w = x := by
    rw [← BitVec.toNat_inj, and_mask_toNat, Nat.mod_eq_of_lt hx]
  rw [← hself, BitVec.and_assoc, hm]
  exact BitVec.and_zero

theorem packBcd_and_eq_zero (v : Byte) {m : Byte} {tw : Nat} (h : tw ≤ 4) (hm : mask (4 + tw) &&& m = 0) :
    packBcd v tw &&& m = 0 :=
  and_eq_zero_of_lt (4 + tw) (packBcd_lt v h) hm

theorem packFlag_and_eq_zero (f : Bit) {m : Byte} (hm : 0x80 &&& m = 0) : packFlag f &&& m = 0 := by
  have hself : packFlag f &&& 0x80 = packFlag f := by
    revert f
    decide
  rw [← hself, BitVec.and_assoc, hm]
  exact BitVec.and_zero

theorem flag_packBcd_and_eq_zero (f : Bit) (v : Byte) {m : Byte} {tw : Nat} (h : tw ≤ 4) (hflag : 0x80 &&& m = 0)
    (hm : mask (4 + tw) &&& m = 0) : (packFlag f ||| packBcd v tw) &&& m = 0 := by
  rw [BitVec.and_or_distrib_right, packFlag_and_eq_zero f hflag, packBcd_and_eq_zero v h hm]
  exact BitVec.or_zero

/-- Bit 7 stays clear of three tens bits. -/
theorem packBcd_three_reserved (v : Byte) : packBcd v 3 &&& 0x80 = 0 := packBcd_and_eq_zero v (by decide) (by decide)

/-- Bits 7 and 6 stay clear of two tens bits. -/
theorem packBcd_two_reserved (v : Byte) : packBcd v 2 &&& 0xC0 = 0 := packBcd_and_eq_zero v (by decide) (by decide)

/-- Bit 6 stays clear of a mask flag and two tens bits. -/
theorem flag_packBcd_two_reserved (f : Bit) (v : Byte) : (packFlag f ||| packBcd v 2) &&& 0x40 = 0 :=
  flag_packBcd_and_eq_zero f v (by decide) (by decide) (by decide)

/-- Bits 6 and 5 stay clear of the month and the century flag. -/
theorem packBcd_month_reserved (v : Byte) (f : Bit) : (packBcd v 1 ||| packFlag f) &&& 0x60 = 0 := by
  rw [BitVec.or_comm]
  exact flag_packBcd_and_eq_zero f v (by decide) (by decide) (by decide)

theorem packDay_reserved (v : Byte) : packPlain v 0 3 &&& 0xF8 = 0 := by
  revert v
  decide

/-- Settles O19: no field of a byte reaches a reserved bit. -/
theorem reservedBitsZero : Obligations.ReservedBitsZero := by
  unfold Obligations.ReservedBitsZero
  refine ⟨fun v j h => ?_, fun a j h => ?_, fun a j h => ?_⟩
  · interval_cases j
    · exact packBcd_three_reserved v.seconds
    · exact packBcd_three_reserved v.minutes
    · exact packBcd_two_reserved v.hours
    · exact packDay_reserved v.day
    · exact packBcd_two_reserved v.date
    · exact packBcd_month_reserved v.month v.century
    · exact BitVec.and_zero
  · interval_cases j
    · exact BitVec.and_zero
    · exact BitVec.and_zero
    · exact flag_packBcd_two_reserved a.m3 a.hours
    · exact flag_packBcd_two_reserved a.m4 a.date
  · interval_cases j
    · exact BitVec.and_zero
    · exact flag_packBcd_two_reserved a.m3 a.hours
    · exact flag_packBcd_two_reserved a.m4 a.date

end Sys2Proof.Machine

namespace Sys2Proof.Machine

/-!
### The outcomes of the eight commands (spec/43_operations.md R180 to R189; spec/42_transactions.md R153 to R156)

By `exec_ok` and `exec_fail` a command of a ready block has two ends. Each statement about one command is the end of its
direction, read off with that command's image or bytes.
-/

section
variable {i : Instr} {s : State}

/-- A read all of whose answers are `ok` delivers the decoded bytes and leaves the registers (R154, R180). -/
theorem exec_read_ok (hd : i.dir = .read) (hs : s.Ready) (ha : s.AnswersOk 7) :
    ∃ t, exec i s = .next t ∧ t.res = some .ok ∧ t.vout = decodeGroup i.group (s.rxBytes i.group) ∧ t.phase = .idle ∧
      t.done = true ∧ t.trace = s.trace ++ readEvents i.group (s.rxBytes i.group) := by
  obtain ⟨t, hexec, htrace⟩ := exec_read_trace hd hs ha
  have hend := exec_ok i s hs (by rwa [hd])
  rw [hexec] at hend
  cases hend
  refine ⟨_, hexec, rfl, ?_, rfl, rfl, htrace⟩
  obtain ⟨-, hbuf, -⟩ := readSeq_done i.group s ha
  have hbytes := Buf.bytes_ofBytes (s.rxBytes i.group) ((s.rxBytes_length i.group).trans_le (len_le_seven _))
  rw [s.rxBytes_length, ← hbuf] at hbytes
  rw [completeOk_vout, requestsOf_of_read hd, acceptCommand, imageOf_of_read hd, hd]
  exact (delivered_of_bytes rfl hbytes).1

/-- A write all of whose answers are `ok` sends its image, which lands in its group's registers (R49, R155, R180). -/
theorem exec_write_ok (hd : i.dir = .write) (hs : s.Ready) (ha : s.AnswersOk 5) :
    ∃ t, exec i s = .next t ∧ t.res = some .ok ∧ t.vout = none ∧ t.phase = .idle ∧ t.done = true ∧
      t.trace = s.trace ++ writeEvents i.group (imageOf i) ∧
      t.mem = Memory.writeBytes s.mem (base i.group).toNat (imageOf i) := by
  obtain ⟨t, hexec, htrace⟩ := exec_write_trace hd hs ha
  have hend := exec_ok i s hs (by rwa [hd])
  rw [hexec] at hend
  cases hend
  refine ⟨_, hexec, rfl, delivered_of_write hd, rfl, rfl, htrace, ?_⟩
  obtain ⟨-, -, hmem⟩ := writeSeq_done i.group (imageOf i) s ha
  rw [completeOk_mem, requestsOf_of_write hd, acceptCommand, hd]
  exact hmem

/-- A command one of whose answers fails reports FAIL and delivers nothing (R205). -/
theorem exec_fail_outcome (i : Instr) (hs : s.Ready) {k : Nat} (hk : k ≤ lastStep i.dir) (hf : s.FailsAt k) :
    ∃ t, exec i s = .next t ∧ t.res = some .fail ∧ t.vout = none ∧ t.phase = .idle ∧ t.done = true :=
  ⟨_, exec_fail i s k hs hk hf, rfl, rfl, rfl, rfl⟩

end

/-! ### The reads -/

/-- Settles O22: the seven clock bytes decoded field by field. -/
theorem readClockDelivers : Obligations.ReadClockDelivers := by
  unfold Obligations.ReadClockDelivers
  intro s hs
  refine ⟨fun p0 p1 p2 p3 p4 p5 p6 ha hrx => ?_, fun k hk hf => exec_fail_outcome .readClock hs hk hf⟩
  obtain ⟨t, hexec, hres, hvout, hphase, hdone, htrace⟩ := exec_read_ok (i := .readClock) rfl hs ha
  rw [Instr.group, hrx] at hvout htrace
  exact ⟨t, decodeClock #v[p0, p1, p2, p3, p4, p5, p6], hexec, hres, hvout, hphase, hdone,
    unpackBcd_toNat p0 (by decide), unpackBcd_toNat p1 (by decide), unpackBcd_toNat p2 (by decide), unpackDay_toNat p3,
    unpackBcd_toNat p4 (by decide), unpackFlag_toNat p5, unpackBcd_toNat p5 (by decide),
    unpackBcd_toNat p6 (by decide), htrace⟩

/-- Settles O23: the four alarm-1 bytes decoded field by field. -/
theorem readAlarm1Delivers : Obligations.ReadAlarm1Delivers := by
  unfold Obligations.ReadAlarm1Delivers
  intro s hs
  refine ⟨fun p0 p1 p2 p3 ha hrx => ?_, fun k hk hf => exec_fail_outcome .readAlarm1 hs hk hf⟩
  obtain ⟨t, hexec, hres, hvout, hphase, hdone, htrace⟩ := exec_read_ok (i := .readAlarm1) rfl hs ha
  rw [Instr.group, hrx] at hvout htrace
  exact ⟨t, decodeAlarm1 #v[p0, p1, p2, p3], hexec, hres, hvout, hphase, hdone, unpackFlag_toNat p0,
    unpackBcd_toNat p0 (by decide), unpackFlag_toNat p1, unpackBcd_toNat p1 (by decide), unpackFlag_toNat p2,
    unpackBcd_toNat p2 (by decide), unpackFlag_toNat p3, unpackBcd_toNat p3 (by decide), htrace⟩

/-- Settles O24: the three alarm-2 bytes decoded field by field. -/
theorem readAlarm2Delivers : Obligations.ReadAlarm2Delivers := by
  unfold Obligations.ReadAlarm2Delivers
  intro s hs
  refine ⟨fun p0 p1 p2 ha hrx => ?_, fun k hk hf => exec_fail_outcome .readAlarm2 hs hk hf⟩
  obtain ⟨t, hexec, hres, hvout, hphase, hdone, htrace⟩ := exec_read_ok (i := .readAlarm2) rfl hs ha
  rw [Instr.group, hrx] at hvout htrace
  exact ⟨t, decodeAlarm2 #v[p0, p1, p2], hexec, hres, hvout, hphase, hdone, decodeAlarm2_m1 _, decodeAlarm2_seconds _,
    unpackFlag_toNat p0, unpackBcd_toNat p0 (by decide), unpackFlag_toNat p1, unpackBcd_toNat p1 (by decide),
    unpackFlag_toNat p2, unpackBcd_toNat p2 (by decide), htrace⟩

/-- Settles O25: the two control bytes as they are. -/
theorem readControlDelivers : Obligations.ReadControlDelivers := by
  unfold Obligations.ReadControlDelivers
  intro s hs
  refine ⟨fun p0 p1 ha hrx => ?_, fun k hk hf => exec_fail_outcome .readControl hs hk hf⟩
  obtain ⟨t, hexec, hres, hvout, hphase, hdone, htrace⟩ := exec_read_ok (i := .readControl) rfl hs ha
  rw [Instr.group, hrx] at hvout htrace
  exact ⟨t, hexec, hres, hvout, hphase, hdone, htrace⟩

/-! ### The writes -/

/-- The byte of a mask flag over a BCD field, in whole numbers: the field does not reach the flag (R131). -/
theorem flag_packBcd_toNat (f : Bit) (v : Byte) {tw : Nat} (h1 : 1 ≤ tw) (h2 : tw ≤ 3) :
    (packFlag f ||| packBcd v tw).toNat = 128 * f.toNat + bcdImage v tw := by
  rw [flag_or_bcd_toNat v f tw h1 h2, packBcd_toNat v (by omega)]

/-- The byte of the month and the century flag. -/
theorem packBcd_century_toNat (v : Byte) (f : Bit) :
    (packBcd v 1 ||| packFlag f).toNat = bcdImage v 1 + 128 * f.toNat := by
  rw [BitVec.or_comm, flag_packBcd_toNat f v (by decide) (by decide), Nat.add_comm]

/-- Settles O26: the seven bytes of the packed clock value. -/
theorem writeClockSends : Obligations.WriteClockSends := by
  unfold Obligations.WriteClockSends
  intro s v hs
  refine ⟨fun ha => ?_, fun k hk hf => exec_fail_outcome (.writeClock v) hs hk hf⟩
  obtain ⟨t, hexec, hres, hvout, hphase, hdone, htrace, -⟩ := exec_write_ok (i := .writeClock v) rfl hs ha
  exact ⟨t, _, _, _, _, _, _, _, hexec, hres, hvout, hphase, hdone, packBcd_toNat _ (by decide),
    packBcd_toNat _ (by decide), packBcd_toNat _ (by decide), packDay_toNat _, packBcd_toNat _ (by decide),
    packBcd_century_toNat _ _, packBcd_toNat _ (by decide), htrace⟩

/-- Settles O27: the four bytes of the packed alarm-1 value. -/
theorem writeAlarm1Sends : Obligations.WriteAlarm1Sends := by
  unfold Obligations.WriteAlarm1Sends
  intro s a hs
  refine ⟨fun ha => ?_, fun k hk hf => exec_fail_outcome (.writeAlarm1 a) hs hk hf⟩
  obtain ⟨t, hexec, hres, hvout, hphase, hdone, htrace, -⟩ := exec_write_ok (i := .writeAlarm1 a) rfl hs ha
  exact ⟨t, _, _, _, _, hexec, hres, hvout, hphase, hdone, flag_packBcd_toNat _ _ (by decide) (by decide),
    flag_packBcd_toNat _ _ (by decide) (by decide), flag_packBcd_toNat _ _ (by decide) (by decide),
    flag_packBcd_toNat _ _ (by decide) (by decide), htrace⟩

/-- Settles O28: the three bytes of the packed alarm-2 value, which `m1` and `seconds` do not enter. -/
theorem writeAlarm2Sends : Obligations.WriteAlarm2Sends := by
  unfold Obligations.WriteAlarm2Sends
  intro s a hs
  refine ⟨fun ha => ?_, fun k hk hf => exec_fail_outcome (.writeAlarm2 a) hs hk hf, fun m x => rfl⟩
  obtain ⟨t, hexec, hres, hvout, hphase, hdone, htrace, -⟩ := exec_write_ok (i := .writeAlarm2 a) rfl hs ha
  exact ⟨t, _, _, _, hexec, hres, hvout, hphase, hdone, flag_packBcd_toNat _ _ (by decide) (by decide),
    flag_packBcd_toNat _ _ (by decide) (by decide), flag_packBcd_toNat _ _ (by decide) (by decide), htrace⟩

/-- Settles O29: the two control bytes as they are. -/
theorem writeControlSends : Obligations.WriteControlSends := by
  unfold Obligations.WriteControlSends
  intro s c hs
  refine ⟨fun ha => ?_, fun k hk hf => exec_fail_outcome (.writeControl c) hs hk hf⟩
  obtain ⟨t, hexec, hres, hvout, hphase, hdone, htrace, -⟩ := exec_write_ok (i := .writeControl c) rfl hs ha
  exact ⟨t, hexec, hres, hvout, hphase, hdone, htrace⟩

/-! ### The two outcomes (R27, R28, R29) -/

theorem not_answersOk_iff (s : State) (n : Nat) : ¬ s.AnswersOk n ↔ ∃ j < n, s.answerAt j = .fail := by
  simp [State.AnswersOk]

/-- Every command of a ready block ends with OK or with FAIL, and only an OK read delivers a value. -/
theorem exec_outcome (i : Instr) {s : State} (hs : s.Ready) :
    ∃ t, exec i s = .next t ∧ t.phase = .idle ∧ t.done = true ∧
      (s.AnswersOk (lastStep i.dir) ∧ t.res = some .ok ∧ (t.vout ≠ none ↔ i.dir = .read) ∨
        ¬ s.AnswersOk (lastStep i.dir) ∧ t.res = some .fail ∧ t.vout = none) := by
  rcases answersOk_or_failsAt s (lastStep i.dir) with hok | ⟨k, hk, hf⟩
  · cases hd : i.dir with
    | read =>
      rw [hd] at hok
      obtain ⟨t, hexec, hres, hvout, hphase, hdone, -⟩ := exec_read_ok hd hs hok
      obtain ⟨v, hv⟩ := decodeGroup_isSome i.group _ (s.rxBytes_length i.group)
      exact ⟨t, hexec, hphase, hdone, .inl ⟨hok, hres, by simp [hvout, hv]⟩⟩
    | write =>
      rw [hd] at hok
      obtain ⟨t, hexec, hres, hvout, hphase, hdone, -⟩ := exec_write_ok hd hs hok
      exact ⟨t, hexec, hphase, hdone, .inl ⟨hok, hres, by simp [hvout]⟩⟩
  · obtain ⟨t, hexec, hres, hvout, hphase, hdone⟩ := exec_fail_outcome i hs hk hf
    obtain ⟨hpos, -, hfail⟩ := hf
    have hnot : ¬ s.AnswersOk (lastStep i.dir) := fun hok => hok (k - 1) (by omega) hfail
    exact ⟨t, hexec, hphase, hdone, .inr ⟨hnot, hres, hvout⟩⟩

/-- Settles O30: the two ends exclude each other. -/
theorem outcomeOkExactlyAllAnswersOk : Obligations.OutcomeOkExactlyAllAnswersOk := by
  unfold Obligations.OutcomeOkExactlyAllAnswersOk
  intro i s hs
  obtain ⟨t, hexec, hphase, hdone, ⟨hok, hres, hvout⟩ | ⟨hnot, hres, hvout⟩⟩ := exec_outcome i hs
  · refine ⟨t, hexec, hphase, hdone, ?_, ?_, ?_⟩
    · simp [hres, hok]
    · simp [hres, ← not_answersOk_iff, hok]
    · simp [hres, hvout]
  · refine ⟨t, hexec, hphase, hdone, ?_, ?_, ?_⟩
    · simp [hres, hnot]
    · simp [hres, ← not_answersOk_iff, hnot]
    · simp [hres, hvout]

/-- Settles O46: the port shows the outcome's bit. -/
theorem outcomeBitOnHostPort : Obligations.OutcomeBitOnHostPort := by
  unfold Obligations.OutcomeBitOnHostPort
  intro i s hs
  obtain ⟨t, hexec, -, hdone, ⟨hok, hres, -⟩ | ⟨hnot, hres, -⟩⟩ := exec_outcome i hs
  · exact ⟨t, hexec, hdone, by simp [State.hostOut, hres, Result.toBit, hok],
      by simp [State.hostOut, hres, Result.toBit, hok]⟩
  · exact ⟨t, hexec, hdone, by simp [State.hostOut, hres, Result.toBit, hnot],
      by simp [State.hostOut, hres, Result.toBit, hnot]⟩

/-! ### Address fixity (R189) -/

/-- What a request of operation `o` may carry: its group's pointer and length, and the address byte of its direction. -/
def Request.FixedBy (o : Op) : Request → Prop
  | .tx b => b = base o.group
  | .txn bs => bs.length = len o.group
  | .rx n => n = len o.group
  | .addr b => b = 0xD0 ∨ (o.dir = .read ∧ b = 0xD1)
  | .begin | .restart | .stop => True

theorem fullSeq_fixed {o : Op} {image : List Byte} (hlen : o.dir = .write → image.length = len o.group) {req : Request}
    (h : req ∈ fullSeq o image) : req.FixedBy o := by
  obtain ⟨g, _ | _⟩ := o
  · simp only [fullSeq, writeSeq, List.mem_cons, List.not_mem_nil, or_false] at h
    obtain rfl | rfl | rfl | rfl | rfl := h
    · trivial
    · exact .inl rfl
    · rfl
    · exact hlen rfl
    · trivial
  · simp only [fullSeq, readSeq, List.mem_cons, List.not_mem_nil, or_false] at h
    obtain rfl | rfl | rfl | rfl | rfl | rfl | rfl := h
    · trivial
    · exact .inl rfl
    · rfl
    · trivial
    · exact .inr ⟨rfl, rfl⟩
    · rfl
    · trivial

/-- Settles O32: the events are of the first requests of the command's own sequence, and none of these carries
anything else. -/
theorem addressFixity : Obligations.AddressFixity := by
  unfold Obligations.AddressFixity
  intro i s hs
  have hexec := exec_of_not_taken i s hs.busTaken
  obtain ⟨es, j, htrace, hreqs⟩ := exec_trace hexec hs.no_reset
  refine ⟨_, es, hexec, htrace, fun e he => ?_⟩
  have hmem : e.req ∈ requestsOf i := by
    have hreq : e.req ∈ es.map Event.req := List.mem_map_of_mem he
    rw [hreqs] at hreq
    exact List.mem_of_mem_take hreq
  have hfixed : e.req.FixedBy ⟨i.group, i.dir⟩ := fullSeq_fixed (imageOf_length i) (requestsOf_eq_fullSeq i ▸ hmem)
  refine ⟨fun b hb => ?_, fun bs hbs => ?_, fun n hn => ?_, fun b hb => ?_⟩
  · rw [hb] at hfixed
    exact hfixed.trans (by cases i.group <;> rfl)
  · rw [hbs] at hfixed
    exact hfixed.trans (by cases i.group <;> rfl)
  · rw [hn] at hfixed
    exact hfixed.trans (by cases i.group <;> rfl)
  · rw [hb] at hfixed
    exact hfixed

end Sys2Proof.Machine

namespace Sys2Proof.Machine

/-!
### The peripheral's registers under the commands (spec/20_memory.md R49, R57; decisions D15 to D17)

What an operation forgets at its end depends on its direction and on whether its data had been sent.
-/

section
variable {s : State} {g : Group}

theorem forgetIfSent_of_read (hop : s.op = some ⟨g, .read⟩) : forgetIfSent s = s.mem := by
  simp only [forgetIfSent, hop]

theorem forgetIfSent_before_data (hop : s.op = some ⟨g, .write⟩) (h : s.step.val < 4) : forgetIfSent s = s.mem := by
  simp only [forgetIfSent, hop]
  exact if_neg (by omega)

theorem forgetIfSent_after_data (hop : s.op = some ⟨g, .write⟩) (h : 4 ≤ s.step.val) :
    forgetIfSent s = Memory.forget s.mem (base g).toNat (len g) := by
  simp only [forgetIfSent, hop]
  exact if_pos h

/-- Outside the group of a write nothing is forgotten. -/
theorem read_forgetIfSent_outside (hop : s.op = some ⟨g, .write⟩) {a : Nat}
    (ha : a < (base g).toNat ∨ (base g).toNat + len g ≤ a) :
    Memory.read (forgetIfSent s) a = Memory.read s.mem a := by
  by_cases h : 4 ≤ s.step.val
  · rw [forgetIfSent_after_data hop h, Memory.read_forget_outside _ _ _ _ ha]
  · rw [forgetIfSent_before_data hop (by omega)]

/-- Of the group of a write that had sent data nothing is known. -/
theorem read_forgetIfSent_inside (hop : s.op = some ⟨g, .write⟩) (h : 4 ≤ s.step.val) {j : Nat} (hj : j < len g) :
    Memory.read (forgetIfSent s) ((base g).toNat + j) = none := by
  rw [forgetIfSent_after_data hop h]
  exact Memory.read_forget_inside _ _ _ _ (by omega)

end

/-- Wherever the requests of a read end, no register has changed. -/
theorem runSeq_read_mem {i : Instr} (hd : i.dir = .read) (s : State) :
    (runSeq (requestsOf i) (acceptCommand i s)).2.mem = s.mem := by
  obtain ⟨j, -, hend, -⟩ := runSeq_reach (requestsOf i) (acceptCommand i s)
  have hplain : (issueAll ((requestsOf i).take j) (acceptCommand i s)).mem = s.mem :=
    issueAll_mem_plain _ _ fun r hr => readSeq_plain _ _ r (requestsOf_of_read hd ▸ List.mem_of_mem_take hr)
  obtain hend | hend := hend <;> rw [hend]
  · exact hplain
  · exact hplain

/-- Wherever the requests of a write end, its image has landed whole or not at all. -/
theorem runSeq_write_mem {i : Instr} (hd : i.dir = .write) (s : State) :
    let t := (runSeq (requestsOf i) (acceptCommand i s)).2
    t.mem = s.mem ∨ t.mem = Memory.writeBytes s.mem (base i.group).toNat (imageOf i) := by
  obtain ⟨j, hj, hend, hok⟩ := runSeq_reach (requestsOf i) (acceptCommand i s)
  rw [requests_length, hd] at hj
  rw [requestsOf_of_write hd] at hend hok ⊢
  have hmem := writeSeq_mem (base i.group) (imageOf i) (acceptCommand i s) j hj hok
  obtain hend | hend := hend <;> rw [hend]
  · exact hmem
  · exact hmem

theorem runSeq_accepted_op (i : Instr) (s : State) :
    (runSeq (requestsOf i) (acceptCommand i s)).2.phase = .busy ∧
      (runSeq (requestsOf i) (acceptCommand i s)).2.op = some ⟨i.group, i.dir⟩ := by
  obtain ⟨hphase, hop, -⟩ := runSeq_frame (requestsOf i) (acceptCommand i s)
  exact ⟨hphase, hop⟩

theorem exec_read_mem {i : Instr} {s t : State} (hd : i.dir = .read) (h : exec i s = .next t) : t.mem = s.mem := by
  obtain ⟨-, rfl⟩ := exec_next h
  obtain ⟨hphase, hop⟩ := runSeq_accepted_op i s
  rw [hd] at hop
  obtain hmem | hmem := finish_mem ⟨i.group, i.dir⟩ _ hphase
  · rw [hmem, runSeq_read_mem hd]
  · rw [hmem, forgetIfSent_of_read hop, runSeq_read_mem hd]

/-- A write leaves every register outside its group as it was, however it ends. -/
theorem exec_write_mem_outside {i : Instr} {s t : State} (hd : i.dir = .write) (h : exec i s = .next t) {a : Nat}
    (ha : a < (base i.group).toNat ∨ (base i.group).toNat + len i.group ≤ a) :
    Memory.read t.mem a = Memory.read s.mem a := by
  obtain ⟨-, rfl⟩ := exec_next h
  obtain ⟨hphase, hop⟩ := runSeq_accepted_op i s
  rw [hd] at hop
  have hrun : Memory.read (runSeq (requestsOf i) (acceptCommand i s)).2.mem a = Memory.read s.mem a := by
    obtain hmem | hmem := runSeq_write_mem hd s <;> rw [hmem]
    exact Memory.read_writeBytes_other _ _ _ _ (by rwa [imageOf_length i hd])
  obtain hmem | hmem := finish_mem ⟨i.group, i.dir⟩ _ hphase <;> rw [hmem]
  · exact hrun
  · rw [read_forgetIfSent_outside hop ha, hrun]

/-- Settles O35: no request and no end touches the inputs; the registers by direction. -/
theorem commandFrame : Obligations.CommandFrame := by
  unfold Obligations.CommandFrame
  intro i s t h
  obtain ⟨-, ht⟩ := exec_next h
  obtain ⟨-, -, hrunIn, hrunMaster, hrunReset⟩ := runSeq_frame (requestsOf i) (acceptCommand i s)
  obtain ⟨hendIn, hendMaster, hendReset⟩ := finish_frame ⟨i.group, i.dir⟩ (runSeq (requestsOf i) (acceptCommand i s))
  rw [← ht] at hendIn hendMaster hendReset
  exact ⟨hendIn.trans hrunIn, hendMaster.trans hrunMaster, fun hreset => hendReset (hrunReset hreset),
    fun hd a => by rw [exec_read_mem hd h], fun hd a ha => exec_write_mem_outside hd h ha⟩

/-! ### What a write does to its own group -/

theorem issueAll_take_op (i : Instr) (k : Nat) (s : State) :
    (issueAll ((requestsOf i).take k) (acceptCommand i s)).op = some ⟨i.group, i.dir⟩ :=
  issueAll_op _ _

/-- Before the fourth request no data has been sent. -/
theorem issueAll_take_mem (i : Instr) (s : State) {k : Nat} (h : i.dir = .read ∨ k < 4) :
    (issueAll ((requestsOf i).take k) (acceptCommand i s)).mem = s.mem := by
  refine issueAll_mem_plain _ _ fun r hr => ?_
  cases hd : i.dir with
  | read => exact readSeq_plain _ _ r (requestsOf_of_read hd ▸ List.mem_of_mem_take hr)
  | write =>
    have hk : k < 4 := h.resolve_left (by simp [hd])
    rw [requestsOf_of_write hd] at hr
    exact writeSeq_plain _ _ k (by omega) r hr

/-- Settles O36: the image lands whole; before step 4 nothing is sent; from step 4 on the group is forgotten. -/
theorem writeEffectOnPeripheral : Obligations.WriteEffectOnPeripheral := by
  unfold Obligations.WriteEffectOnPeripheral
  intro i s hd hs
  have hlast : lastStep i.dir = 5 := by rw [hd, lastStep]
  have hop (k : Nat) : (issueAll ((requestsOf i).take k) (acceptCommand i s)).op = some ⟨i.group, .write⟩ := by
    rw [issueAll_take_op, hd]
  refine ⟨fun ha => ?_, fun k hk hf => ?_, fun k hk hk5 hf => ?_⟩
  · obtain ⟨t, hexec, -, -, -, -, -, hmem⟩ := exec_write_ok hd hs ha
    refine ⟨t, hexec, fun j hj => ?_⟩
    rw [hmem]
    exact Memory.read_writeBytes_inside _ _ _ _ (by rwa [imageOf_length i hd])
  · have hk5 : k ≤ lastStep i.dir := by omega
    obtain ⟨hstep, -⟩ := issueAll_take_events i s hk5
    refine ⟨_, exec_fail i s k hs hk5 hf, ?_⟩
    rw [transactionFailure_mem, forgetIfSent_before_data (hop k) (by omega), issueAll_take_mem i s (.inr (by omega))]
  · have hk5 : k ≤ lastStep i.dir := by omega
    obtain ⟨hstep, -⟩ := issueAll_take_events i s hk5
    exact ⟨_, exec_fail i s k hs hk5 hf, fun j hj => read_forgetIfSent_inside (hop k) (by omega) hj⟩

/-! ### Loopback in the reference environment (D17) -/

theorem answerAt_issueAll (reqs : List Request) (s : State) (j : Nat) :
    (issueAll reqs s).answerAt j = s.answerAt (j + reqs.length) := by
  rw [State.answerAt, State.answerAt, issueAll_answers, issueAll_draws, List.getElem?_drop, Nat.add_comm j,
    Nat.add_assoc]

/-- The answers after a command all of whose answers were `ok` are those that come next. -/
theorem exec_ok_answerAt {i : Instr} {s t : State} (hs : s.Ready) (ha : s.AnswersOk (lastStep i.dir))
    (h : exec i s = .next t) (j : Nat) : t.answerAt j = s.answerAt (j + lastStep i.dir) := by
  rw [exec_ok i s hs ha] at h
  cases h
  rw [← requests_length i]
  exact answerAt_issueAll (requestsOf i) (acceptCommand i s) j

/-- Under the answer of the reference environment a receive delivers the bytes that were written there. -/
theorem received_okRegs_writeBytes (m : Memory) (p : Byte) (bs : List Byte) (draw : Nat) :
    received .okRegs (Memory.writeBytes m p.toNat bs) (some p) draw bs.length = bs := by
  refine List.ext_getElem (received_length ..) fun j _ hj => ?_
  simp [received, Memory.read_writeBytes_inside _ _ _ _ hj, hj]

/-- Settles O37: the write's image stands in the registers that the read then receives. -/
theorem controlLoopback : Obligations.ControlLoopback := by
  unfold Obligations.ControlLoopback
  intro s c hs hregs
  have hok (n : Nat) (hn : n ≤ 12) : s.AnswersOk n := fun j hj => by simp [hregs j (by omega)]
  obtain ⟨t, hwrite, hres, -, -, -, -, hmem⟩ := exec_write_ok (i := .writeControl c) rfl hs (hok 5 (by decide))
  have hans (j : Nat) : t.answerAt j = s.answerAt (j + 5) :=
    exec_ok_answerAt (i := .writeControl c) hs (hok 5 (by decide)) hwrite j
  have hread : t.AnswersOk 7 := fun j hj => by rw [hans]; exact hok 12 (by decide) _ (by omega)
  obtain ⟨u, hexec, hres', hvout, -⟩ := exec_read_ok (i := .readControl) rfl (exec_keeps_ready hs hwrite) hread
  have hrx : t.rxBytes .control = [c.ctrl, c.stat] := by
    rw [State.rxBytes, hmem, hans, hregs 10 (by decide)]
    exact received_okRegs_writeBytes s.mem (base .control) [c.ctrl, c.stat] _
  rw [Instr.group, hrx] at hvout
  exact ⟨t, u, hwrite, hexec, hres, hres', hvout⟩

end Sys2Proof.Machine

namespace Sys2Proof.Machine

/-!
### A reset inside an operation and after it (spec/70_reset_and_hazards.md R231; decision D10, log entry 10)

A reset that lands inside the sequence cuts it off after `k` answered requests, with one more issued or not; one that
lands later lets the operation end as without it.
-/

/-- The state of an operation cut off after `k` answered requests, with one more issued if `issued`. -/
def cutOff (i : Instr) (s : State) (k : Nat) (issued : Bool) : State :=
  if issued then issueUnanswered (issueAll ((requestsOf i).take k) (acceptCommand i s))
  else issueAll ((requestsOf i).take k) (acceptCommand i s)

section
variable (i : Instr) (s : State) (k : Nat) (issued : Bool)

theorem issueAll_phase (reqs : List Request) (s : State) : (issueAll reqs s).phase = s.phase := by
  induction reqs generalizing s with
  | nil => rfl
  | cons req reqs ih => rw [issueAll_cons, ih, issue_phase]

@[simp] theorem cutOff_phase : (cutOff i s k issued).phase = .busy := by
  cases issued <;> exact issueAll_phase _ _

@[simp] theorem cutOff_op : (cutOff i s k issued).op = some ⟨i.group, i.dir⟩ := by
  cases issued <;> exact issueAll_take_op i k s

variable {k issued} (hk : k + issued.toNat ≤ lastStep i.dir)
include hk

theorem cutOff_answers : (cutOff i s k issued).answers = s.answers.drop k := by
  have hans := issueAll_answers ((requestsOf i).take k) (acceptCommand i s)
  rw [requestsOf_take_length i (by omega)] at hans
  cases issued <;> exact hans

theorem cutOff_step : (cutOff i s k issued).step.val = k + issued.toNat := by
  obtain ⟨hstep, -⟩ := issueAll_take_events i s (show k ≤ lastStep i.dir by omega)
  cases issued with
  | false => exact hstep
  | true =>
    have hlast := lastStep_le_seven i.dir
    have hk' : k + 1 ≤ lastStep i.dir := hk
    have hsucc := step_succ (issueAll ((requestsOf i).take k) (acceptCommand i s)).step (by omega)
    rw [hstep] at hsucc
    exact hsucc

/-- No register is touched by a read, or before the fourth request of a write has begun. -/
theorem forgetIfSent_cutOff (h : i.dir = .read ∨ k + issued.toNat < 4) :
    forgetIfSent (cutOff i s k issued) = s.mem := by
  have hmem : (cutOff i s k issued).mem = s.mem := by
    have hall := issueAll_take_mem i s (k := k) (h.imp_right fun hlt => by omega)
    cases issued <;> exact hall
  have hop := cutOff_op i s k issued
  cases hd : i.dir with
  | read =>
    rw [hd] at hop
    rw [forgetIfSent_of_read hop, hmem]
  | write =>
    have hlt : (cutOff i s k issued).step.val < 4 := by
      rw [cutOff_step i s hk]
      exact h.resolve_left (by simp [hd])
    rw [hd] at hop
    rw [forgetIfSent_before_data hop hlt, hmem]

/-- Once the fourth request of a write has begun nothing is known of its group's registers (U12). -/
theorem read_forgetIfSent_cutOff (hd : i.dir = .write) (h : 4 ≤ k + issued.toNat) {j : Nat} (hj : j < len i.group) :
    Memory.read (forgetIfSent (cutOff i s k issued)) ((base i.group).toNat + j) = none := by
  have hop := cutOff_op i s k issued
  rw [hd] at hop
  exact read_forgetIfSent_inside hop (by rwa [cutOff_step i s hk]) hj

end

/-- A reset that lands within the sequence, with every answer so far `ok` or with the first `fail`, abandons the
operation there. -/
theorem exec_abandoned {i : Instr} {s : State} {k : Nat} {issued : Bool} (htaken : s.busTaken = false)
    (hreset : s.resetIn = some ⟨k, issued⟩) (hans : s.AnswersOk k ∨ (issued = false ∧ s.FailsAt k))
    (hk : k + issued.toNat ≤ lastStep i.dir) : exec i s = .next (resetBlock (cutOff i s k issued)) := by
  rw [← requests_length i] at hk
  rw [exec_of_not_taken i s htaken]
  obtain hok | ⟨rfl, hpos, hok, hfail⟩ := hans
  · rw [runSeq_abandoned (requestsOf i) (acceptCommand i s) k issued hreset hok hk]
    rfl
  · obtain ⟨k, rfl⟩ := Nat.exists_eq_add_of_le' hpos
    rw [runSeq_abandoned_failing (requestsOf i) (acceptCommand i s) k hreset hok hfail hk]
    rfl

/-- A reset inside an operation leaves the bus UNKNOWN, the pointer unknown and the registers that `forgetIfSent`
leaves (U12, U16). -/
theorem resetBlock_of_busy {s : State} (hbusy : s.phase = .busy) :
    (resetBlock s).bus = .unknown ∧ (resetBlock s).ptr = none ∧ (resetBlock s).mem = forgetIfSent s := by
  simp [hbusy]

/-- Settles O48: the operation is cut off and the reset forgets what step and direction say. -/
theorem resetAbandonsOperation : Obligations.ResetAbandonsOperation := by
  unfold Obligations.ResetAbandonsOperation
  intro i s k issued hidle halone hreset hans hk
  obtain ⟨hbus, hptr, hmem⟩ := resetBlock_of_busy (cutOff_phase i s k issued)
  refine ⟨_, exec_abandoned (busTaken_of_idle hidle halone) hreset hans hk, rfl, rfl, rfl, rfl, rfl, rfl, rfl, rfl,
    hbus, hptr, rfl, cutOff_answers i s hk, fun hearly => ?_, fun hd hlate j hj => ?_⟩
  · rw [hmem, forgetIfSent_cutOff i s hk hearly]
  · rw [hmem, read_forgetIfSent_cutOff i s hk hd hlate hj]

/-- Settles O54: the sequence ends as without the reset, which is then nearer by the requests answered. -/
theorem resetLaterThanOperation : Obligations.ResetLaterThanOperation := by
  unfold Obligations.ResetLaterThanOperation
  intro i s n issued hidle halone hreset
  have hexec := exec_of_not_taken i s (busTaken_of_idle hidle halone)
  have hnearer (reqs : List Request) : (issueAll reqs (acceptCommand i s)).resetIn = some ⟨n - reqs.length, issued⟩ :=
    issueAll_resetIn_some reqs _ n issued hreset
  constructor
  · intro hok hlater
    rw [← requests_length i] at hok hlater ⊢
    rw [runSeq_done_before (requestsOf i) (acceptCommand i s) n issued hreset hlater hok] at hexec
    exact ⟨_, hexec, rfl, rfl, rfl, hnearer _⟩
  · rintro k hk ⟨hpos, hok, hfail⟩ hlater
    obtain ⟨k, rfl⟩ := Nat.exists_eq_add_of_le' hpos
    have hreset' := hnearer ((requestsOf i).take (k + 1))
    rw [requestsOf_take_length i hk] at hreset'
    rw [← requests_length i] at hk
    rw [runSeq_failed_before (requestsOf i) (acceptCommand i s) k n issued hreset hlater hk hok hfail] at hexec
    exact ⟨_, hexec, rfl, rfl, rfl, rfl, hreset'⟩

end Sys2Proof.Machine

namespace Sys2Proof.Machine

/-!
### The assembler (spec/30_encoding.md R89; decision D19, log entry 12)

A host value is assembled exactly when each of its fields has its value in the line; the order of the fields and their
presence are read off these equivalences.
-/

section
variable {fs fs' : List (FieldName × Nat)}

/-- Two steps of an assembly succeed exactly when both do. -/
theorem bind_eq_ok_iff {α β : Type} {x : Except AsmError α} {f : α → Except AsmError β} {b : β} :
    (x >>= f) = .ok b ↔ ∃ a, x = .ok a ∧ f a = .ok b := by
  refine ⟨bind_eq_ok, ?_⟩
  rintro ⟨a, rfl, h⟩
  exact h

theorem map_eq_ok_iff {α β : Type} {x : Except AsmError α} {f : α → β} {b : β} :
    x.map f = .ok b ↔ ∃ a, x = .ok a ∧ f a = b := by
  refine ⟨map_eq_ok, ?_⟩
  rintro ⟨a, rfl, rfl⟩
  rfl

theorem clockOfFields_eq_ok_iff {v : ClockValue} : clockOfFields fs = .ok v ↔
    byteField fs .seconds = .ok v.seconds ∧ byteField fs .minutes = .ok v.minutes ∧
      byteField fs .hours = .ok v.hours ∧ byteField fs .day = .ok v.day ∧ byteField fs .date = .ok v.date ∧
      bitField fs .century = .ok v.century ∧ byteField fs .month = .ok v.month ∧ byteField fs .year = .ok v.year := by
  simp only [clockOfFields, bind_eq_ok_iff]
  constructor
  · rintro ⟨_, h1, _, h2, _, h3, _, h4, _, h5, _, h6, _, h7, _, h8, hv⟩
    cases hv
    exact ⟨h1, h2, h3, h4, h5, h6, h7, h8⟩
  · rintro ⟨h1, h2, h3, h4, h5, h6, h7, h8⟩
    exact ⟨_, h1, _, h2, _, h3, _, h4, _, h5, _, h6, _, h7, _, h8, rfl⟩

theorem alarmOfFields_eq_ok_iff {a : AlarmValue} : alarmOfFields fs = .ok a ↔
    bitField fs .m1 = .ok a.m1 ∧ byteField fs .seconds = .ok a.seconds ∧ bitField fs .m2 = .ok a.m2 ∧
      byteField fs .minutes = .ok a.minutes ∧ bitField fs .m3 = .ok a.m3 ∧ byteField fs .hours = .ok a.hours ∧
      bitField fs .m4 = .ok a.m4 ∧ byteField fs .date = .ok a.date := by
  simp only [alarmOfFields, bind_eq_ok_iff]
  constructor
  · rintro ⟨_, h1, _, h2, _, h3, _, h4, _, h5, _, h6, _, h7, _, h8, hv⟩
    cases hv
    exact ⟨h1, h2, h3, h4, h5, h6, h7, h8⟩
  · rintro ⟨h1, h2, h3, h4, h5, h6, h7, h8⟩
    exact ⟨_, h1, _, h2, _, h3, _, h4, _, h5, _, h6, _, h7, _, h8, rfl⟩

theorem controlOfFields_eq_ok_iff {c : ControlValue} : controlOfFields fs = .ok c ↔
    byteField fs .ctrl = .ok c.ctrl ∧ byteField fs .stat = .ok c.stat := by
  simp only [controlOfFields, bind_eq_ok_iff]
  constructor
  · rintro ⟨_, h1, _, h2, hv⟩
    cases hv
    exact ⟨h1, h2⟩
  · rintro ⟨h1, h2⟩
    exact ⟨_, h1, _, h2, rfl⟩

/-- The command of a line's mnemonic and fields, unknown fields not looked at. -/
def commandOfFields (m : Mnemonic) (fs : List (FieldName × Nat)) : Except AsmError Instr :=
  match m with
  | .WRITE_CLOCK => (clockOfFields fs).map .writeClock
  | .READ_CLOCK => .ok .readClock
  | .WRITE_ALARM1 => (alarmOfFields fs).map .writeAlarm1
  | .READ_ALARM1 => .ok .readAlarm1
  | .WRITE_ALARM2 => (alarmOfFields fs).map .writeAlarm2
  | .READ_ALARM2 => .ok .readAlarm2
  | .WRITE_CONTROL => (controlOfFields fs).map .writeControl
  | .READ_CONTROL => .ok .readControl

/-- A line assembles exactly when it has no unknown field and its fields make up the command. -/
theorem assemble_eq_ok_iff {m : Mnemonic} {i : Instr} : assemble ⟨m, fs⟩ = .ok i ↔
    (fs.find? fun p => decide (p.1 ∉ fieldsOf m)) = none ∧ commandOfFields m fs = .ok i := by
  unfold assemble
  cases hfind : fs.find? fun p => decide (p.1 ∉ fieldsOf m) with
  | some p => simp
  | none =>
    simp only [true_and]
    cases m <;> rfl

/-! ### Order and presence of the fields -/

theorem clockOfFields_perm (hp : fs'.Perm fs) {v : ClockValue} (h : clockOfFields fs = .ok v) :
    clockOfFields fs' = .ok v := by
  rw [clockOfFields_eq_ok_iff] at h ⊢
  obtain ⟨h1, h2, h3, h4, h5, h6, h7, h8⟩ := h
  exact ⟨byteField_perm hp h1, byteField_perm hp h2, byteField_perm hp h3, byteField_perm hp h4, byteField_perm hp h5,
    bitField_perm hp h6, byteField_perm hp h7, byteField_perm hp h8⟩

theorem alarmOfFields_perm (hp : fs'.Perm fs) {a : AlarmValue} (h : alarmOfFields fs = .ok a) :
    alarmOfFields fs' = .ok a := by
  rw [alarmOfFields_eq_ok_iff] at h ⊢
  obtain ⟨h1, h2, h3, h4, h5, h6, h7, h8⟩ := h
  exact ⟨bitField_perm hp h1, byteField_perm hp h2, bitField_perm hp h3, byteField_perm hp h4, bitField_perm hp h5,
    byteField_perm hp h6, bitField_perm hp h7, byteField_perm hp h8⟩

theorem controlOfFields_perm (hp : fs'.Perm fs) {c : ControlValue} (h : controlOfFields fs = .ok c) :
    controlOfFields fs' = .ok c := by
  rw [controlOfFields_eq_ok_iff] at h ⊢
  obtain ⟨hctrl, hstat⟩ := h
  exact ⟨byteField_perm hp hctrl, byteField_perm hp hstat⟩

theorem commandOfFields_perm (hp : fs'.Perm fs) {m : Mnemonic} {i : Instr} (h : commandOfFields m fs = .ok i) :
    commandOfFields m fs' = .ok i := by
  cases m with
  | READ_CLOCK | READ_ALARM1 | READ_ALARM2 | READ_CONTROL => exact h
  | WRITE_CLOCK =>
    obtain ⟨v, hv, hi⟩ := map_eq_ok_iff.mp h
    exact map_eq_ok_iff.mpr ⟨v, clockOfFields_perm hp hv, hi⟩
  | WRITE_ALARM1 | WRITE_ALARM2 =>
    obtain ⟨a, ha, hi⟩ := map_eq_ok_iff.mp h
    exact map_eq_ok_iff.mpr ⟨a, alarmOfFields_perm hp ha, hi⟩
  | WRITE_CONTROL =>
    obtain ⟨c, hc, hi⟩ := map_eq_ok_iff.mp h
    exact map_eq_ok_iff.mpr ⟨c, controlOfFields_perm hp hc, hi⟩

theorem assemble_perm (hp : fs'.Perm fs) {m : Mnemonic} {i : Instr} (h : assemble ⟨m, fs⟩ = .ok i) :
    assemble ⟨m, fs'⟩ = .ok i := by
  obtain ⟨hknown, hcommand⟩ := assemble_eq_ok_iff.mp h
  exact assemble_eq_ok_iff.mpr ⟨noUnknown_perm hp hknown, commandOfFields_perm hp hcommand⟩

theorem alarmOfFields_mem {a : AlarmValue} (h : alarmOfFields fs = .ok a) :
    ∀ f ∈ fieldsOf .WRITE_ALARM1, f ∈ fs.map Prod.fst := by
  obtain ⟨h1, h2, h3, h4, h5, h6, h7, h8⟩ := alarmOfFields_eq_ok_iff.mp h
  simp only [fieldsOf, List.forall_mem_cons]
  exact ⟨bitField_mem h1, byteField_mem h2, bitField_mem h3, byteField_mem h4, bitField_mem h5, byteField_mem h6,
    bitField_mem h7, byteField_mem h8, nofun⟩

/-- A command's fields all stand in its line: there is no default. -/
theorem commandOfFields_mem {m : Mnemonic} {i : Instr} (h : commandOfFields m fs = .ok i) :
    ∀ f ∈ fieldsOf m, f ∈ fs.map Prod.fst := by
  cases m with
  | READ_CLOCK | READ_ALARM1 | READ_ALARM2 | READ_CONTROL => exact nofun
  | WRITE_CLOCK =>
    obtain ⟨v, hv, -⟩ := map_eq_ok_iff.mp h
    obtain ⟨h1, h2, h3, h4, h5, h6, h7, h8⟩ := clockOfFields_eq_ok_iff.mp hv
    simp only [fieldsOf, List.forall_mem_cons]
    exact ⟨byteField_mem h1, byteField_mem h2, byteField_mem h3, byteField_mem h4, byteField_mem h5, bitField_mem h6,
      byteField_mem h7, byteField_mem h8, nofun⟩
  | WRITE_ALARM1 | WRITE_ALARM2 =>
    obtain ⟨a, ha, -⟩ := map_eq_ok_iff.mp h
    exact alarmOfFields_mem ha
  | WRITE_CONTROL =>
    obtain ⟨c, hc, -⟩ := map_eq_ok_iff.mp h
    obtain ⟨hctrl, hstat⟩ := controlOfFields_eq_ok_iff.mp hc
    simp only [fieldsOf, List.forall_mem_cons]
    exact ⟨byteField_mem hctrl, byteField_mem hstat, nofun⟩

/-- A line that assembles names all of its command's fields and no other. -/
theorem assemble_fields {m : Mnemonic} {i : Instr} (h : assemble ⟨m, fs⟩ = .ok i) :
    (∀ f ∈ fieldsOf m, f ∈ fs.map Prod.fst) ∧ ∀ f ∈ fs.map Prod.fst, f ∈ fieldsOf m := by
  obtain ⟨hknown, hcommand⟩ := assemble_eq_ok_iff.mp h
  refine ⟨commandOfFields_mem hcommand, ?_⟩
  simpa using hknown

end

/-! ### Each value goes to the field of its name -/

theorem assemble_writeClock (v : ClockValue) : assemble ⟨.WRITE_CLOCK,
    [(.seconds, v.seconds.toNat), (.minutes, v.minutes.toNat), (.hours, v.hours.toNat), (.day, v.day.toNat),
      (.date, v.date.toNat), (.century, v.century.toNat), (.month, v.month.toNat), (.year, v.year.toNat)]⟩ =
    .ok (.writeClock v) := by
  refine assemble_eq_ok_iff.mpr ⟨rfl, map_eq_ok_iff.mpr ⟨v, clockOfFields_eq_ok_iff.mpr ?_, rfl⟩⟩
  exact ⟨byteField_of_values rfl rfl, byteField_of_values rfl rfl, byteField_of_values rfl rfl,
    byteField_of_values rfl rfl, byteField_of_values rfl rfl, bitField_of_values rfl rfl, byteField_of_values rfl rfl,
    byteField_of_values rfl rfl⟩

theorem alarmOfFields_values (a : AlarmValue) : alarmOfFields
    [(.m1, a.m1.toNat), (.seconds, a.seconds.toNat), (.m2, a.m2.toNat), (.minutes, a.minutes.toNat),
      (.m3, a.m3.toNat), (.hours, a.hours.toNat), (.m4, a.m4.toNat), (.date, a.date.toNat)] = .ok a :=
  alarmOfFields_eq_ok_iff.mpr ⟨bitField_of_values rfl rfl, byteField_of_values rfl rfl, bitField_of_values rfl rfl,
    byteField_of_values rfl rfl, bitField_of_values rfl rfl, byteField_of_values rfl rfl, bitField_of_values rfl rfl,
    byteField_of_values rfl rfl⟩

theorem assemble_writeControl (c : ControlValue) :
    assemble ⟨.WRITE_CONTROL, [(.ctrl, c.ctrl.toNat), (.stat, c.stat.toNat)]⟩ = .ok (.writeControl c) := by
  refine assemble_eq_ok_iff.mpr ⟨rfl, map_eq_ok_iff.mpr ⟨c, controlOfFields_eq_ok_iff.mpr ?_, rfl⟩⟩
  exact ⟨byteField_of_values rfl rfl, byteField_of_values rfl rfl⟩

/-- WRITE_CONTROL without `stat`, its `ctrl` within its width. -/
theorem assemble_control_missing {x : Nat} (h : x < 256) :
    assemble ⟨.WRITE_CONTROL, [(.ctrl, x)]⟩ = .error (.missing .stat) := by
  have hctrl : fieldValue [(.ctrl, x)] .ctrl = .ok x := if_pos h
  have hbyte : byteField [(.ctrl, x)] .ctrl = .ok (BitVec.ofNat 8 x) := by rw [byteField, hctrl]; rfl
  have hvalue : controlOfFields [(.ctrl, x)] = .error (.missing .stat) := by rw [controlOfFields, hbyte]; rfl
  exact congrArg (Except.map Instr.writeControl) hvalue

/-- Settles O53: order and presence for every mnemonic, then the values of the four writes. -/
theorem assemblerFieldsByName : Obligations.AssemblerFieldsByName := by
  unfold Obligations.AssemblerFieldsByName
  refine ⟨fun m i fs fs' hp h => assemble_perm hp h, assemble_writeClock, fun a => ⟨?_, ?_⟩, assemble_writeControl,
    fun x => ?_, ⟨rfl, rfl, rfl, rfl⟩, fun m i fs h => assemble_fields h⟩
  · exact assemble_eq_ok_iff.mpr ⟨rfl, map_eq_ok_iff.mpr ⟨a, alarmOfFields_values a, rfl⟩⟩
  · exact assemble_eq_ok_iff.mpr ⟨rfl, map_eq_ok_iff.mpr ⟨a, alarmOfFields_values a, rfl⟩⟩
  · exact (Nat.lt_or_ge x 256).imp_left assemble_control_missing

end Sys2Proof.Machine
